-- ==== Sys2Proof/Word.lean ====
section
/-! DEFINITION. The storage word and the byte of bit_vector_engine (00_scope.md R6, R7; 20_memory.md R60). -/

namespace Sys2Proof

/-- The 32-bit storage word, operand width and command word (00_scope.md R6, R7; 30_encoding.md R100). -/
abbrev Word := BitVec 32

/-- A byte of the byte buffer (10_state.md R40). -/
abbrev Byte := BitVec 8

end Sys2Proof
end

