-- ==== Sys2Proof/Syntax.lean ====
section
/-! DEFINITION. The 25 commands of `BVE-CMD v1` (30_encoding.md R104) and the host's accesses (R120). -/

namespace Sys2Proof

/-- One constructor for each row of the opcode map (30_encoding.md R104). `a` and `b` are the slot numbers of fields
`A` and `B` (R101, R102); the other operands are in `ARG0..ARG3` when the command runs (R103). -/
inductive Instr where
  | nop
  | errclr
  | sreset
  | brd
  | vinit (a : Nat)
  | vsize (a : Nat)
  | vget (a : Nat)
  | vset (a : Nat)
  | vflip (a : Nat)
  | vappend (a : Nat)
  | vrdbits (a : Nat)
  /-- `a` is the destination, `b` the source. -/
  | vxor (a b : Nat)
  | vtobytes (a : Nat)
  | minit (a : Nat)
  | mdim (a : Nat)
  | mget (a : Nat)
  | mset (a : Nat)
  | mflip (a : Nat)
  | mfill (a : Nat)
  /-- `a` is the matrix slot, `b` the vector slot. -/
  | mgetrow (a b : Nat)
  /-- `a` is the matrix slot, `b` the vector slot. -/
  | msetrow (a b : Nat)
  | mrot180 (a : Nat)
  | mtop (a : Nat)
  | mbot (a : Nat)
  | mrect (a : Nat)
  deriving DecidableEq, Repr

/-- One thing the outside world does to the engine. A program is a finite list of register accesses
(30_encoding.md R120); the reset line (70_reset_and_hazards.md R310) is the only other input. -/
inductive HostEvent where
  /-- A write of `width` bits at byte `offset` of the register block. -/
  | write (width offset : Nat) (value : Word)
  /-- A read of `width` bits at byte `offset` of the register block. -/
  | read (width offset : Nat)
  /-- The reset line is asserted (`true`) or released (`false`). -/
  | reset (asserted : Bool)
  deriving DecidableEq, Repr

/-- `W offset value` of 30_encoding.md R120. -/
abbrev HostEvent.W (offset : Nat) (value : Word) : HostEvent := .write 32 offset value

/-- `R offset` of 30_encoding.md R120. -/
abbrev HostEvent.R (offset : Nat) : HostEvent := .read 32 offset

end Sys2Proof
end

