-- ==== Sys2Proof/WellFormed.lean ====
section
/-! DEFINITION. Which commands and which host accesses are well formed. -/

namespace Sys2Proof

/-- A slot number names one of the `NV = NM = 4` slots (10_state.md R34, 30_encoding.md R101). -/
abbrev SlotOk (a : Nat) : Prop := a < 4

/-- Every slot number of the command fits its 2-bit field (30_encoding.md R101, R102). -/
abbrev Instr.WellFormed : Instr → Prop
  | .nop => True
  | .errclr => True
  | .sreset => True
  | .brd => True
  | .vinit a => SlotOk a
  | .vsize a => SlotOk a
  | .vget a => SlotOk a
  | .vset a => SlotOk a
  | .vflip a => SlotOk a
  | .vappend a => SlotOk a
  | .vrdbits a => SlotOk a
  | .vxor a b => SlotOk a ∧ SlotOk b
  | .vtobytes a => SlotOk a
  | .minit a => SlotOk a
  | .mdim a => SlotOk a
  | .mget a => SlotOk a
  | .mset a => SlotOk a
  | .mflip a => SlotOk a
  | .mfill a => SlotOk a
  | .mgetrow a b => SlotOk a ∧ SlotOk b
  | .msetrow a b => SlotOk a ∧ SlotOk b
  | .mrot180 a => SlotOk a
  | .mtop a => SlotOk a
  | .mbot a => SlotOk a
  | .mrect a => SlotOk a

/-- The only defined register accesses: 32 bits, at a multiple of 4, at most 0x7C (20_memory.md R71). -/
abbrev AccessOk (width offset : Nat) : Prop := width = 32 ∧ offset % 4 = 0 ∧ offset ≤ 0x7C

/-- A host event the spec defines (20_memory.md R71, 93_implementation_defined.md U5). -/
abbrev HostEvent.WellFormed : HostEvent → Prop
  | .write width offset _ => AccessOk width offset
  | .read width offset => AccessOk width offset
  | .reset _ => True

end Sys2Proof
end

