-- ==== Sys2Proof/Decode.lean ====
section
/-! DEFINITION. Decoding of command words (30_encoding.md R100 to R107), total and rejecting by name, and the encoder. -/

namespace Sys2Proof

/-- Why a command word is illegal (30_encoding.md R105). Each reason raises `IllegalCommand` (60_exceptions.md R275). -/
inductive DecodeError where
  /-- R105 (b): a bit of `Z` (31:12) is set. -/
  | reservedBits
  /-- R105 (a): `OP` is none of the 25 opcodes. -/
  | unknownOpcode
  /-- R105 (c): a slot field the format does not use is not zero. -/
  | unusedSlot
  deriving DecidableEq, Repr

/-- The formats of 30_encoding.md R102. -/
inductive Format where
  | Z
  | V
  | VV
  | M
  | MV
  deriving DecidableEq, Repr

/-- `OP`, bits 7:0 (30_encoding.md R101). -/
def opField (cw : Word) : Nat := (cw.extractLsb' 0 8).toNat

/-- `A`, bits 9:8. -/
def slotFieldA (cw : Word) : Nat := (cw.extractLsb' 8 2).toNat

/-- `B`, bits 11:10. -/
def slotFieldB (cw : Word) : Nat := (cw.extractLsb' 10 2).toNat

/-- `Z`, bits 31:12. -/
def zField (cw : Word) : Nat := (cw.extractLsb' 12 20).toNat

/-- The opcode map (30_encoding.md R104): the format of an opcode and the command it stands for, given `A` and `B`. -/
def opcodeRow (op : Nat) : Option (Format × (Nat → Nat → Instr)) :=
  match op with
  | 0x00 => some (.Z, fun _ _ => .nop)
  | 0x01 => some (.Z, fun _ _ => .errclr)
  | 0x02 => some (.Z, fun _ _ => .sreset)
  | 0x03 => some (.Z, fun _ _ => .brd)
  | 0x10 => some (.V, fun a _ => .vinit a)
  | 0x11 => some (.V, fun a _ => .vsize a)
  | 0x12 => some (.V, fun a _ => .vget a)
  | 0x13 => some (.V, fun a _ => .vset a)
  | 0x14 => some (.V, fun a _ => .vflip a)
  | 0x15 => some (.V, fun a _ => .vappend a)
  | 0x16 => some (.V, fun a _ => .vrdbits a)
  | 0x17 => some (.VV, fun a b => .vxor a b)
  | 0x18 => some (.V, fun a _ => .vtobytes a)
  | 0x20 => some (.M, fun a _ => .minit a)
  | 0x21 => some (.M, fun a _ => .mdim a)
  | 0x22 => some (.M, fun a _ => .mget a)
  | 0x23 => some (.M, fun a _ => .mset a)
  | 0x24 => some (.M, fun a _ => .mflip a)
  | 0x25 => some (.M, fun a _ => .mfill a)
  | 0x26 => some (.MV, fun a b => .mgetrow a b)
  | 0x27 => some (.MV, fun a b => .msetrow a b)
  | 0x28 => some (.M, fun a _ => .mrot180 a)
  | 0x29 => some (.M, fun a _ => .mtop a)
  | 0x2A => some (.M, fun a _ => .mbot a)
  | 0x2B => some (.M, fun a _ => .mrect a)
  | _ => none

/-- A slot field the format does not use must be zero (30_encoding.md R102). -/
def Format.slotsAllowed (fmt : Format) (a b : Nat) : Bool :=
  match fmt with
  | .Z => a == 0 && b == 0
  | .V => b == 0
  | .M => b == 0
  | .VV => true
  | .MV => true

/-- Decode, as a total function on 32-bit words, in the order of 30_encoding.md R106. -/
def decode (cw : Word) : Except DecodeError Instr :=
  if zField cw ≠ 0 then .error .reservedBits
  else match opcodeRow (opField cw) with
    | none => .error .unknownOpcode
    | some (fmt, mk) =>
      if fmt.slotsAllowed (slotFieldA cw) (slotFieldB cw) then .ok (mk (slotFieldA cw) (slotFieldB cw))
      else .error .unusedSlot

/-- The instruction the decoder reads from the low `nbits` bits of `w`. A command word is one 32-bit word written whole
to `CMD`, so no byte order comes in (20_memory.md R70, 30_encoding.md R100). -/
def decodeTableWord (nbits w : Nat) : Option Instr :=
  match decode (BitVec.ofNat 32 (w % 2 ^ nbits)) with
  | .ok i => some i
  | .error _ => none

/-- `OP | (A << 8) | (B << 10)` (30_encoding.md R110). -/
def commandWord (op a b : Nat) : Word :=
  BitVec.ofNat 32 op ||| (BitVec.ofNat 32 a <<< 8) ||| (BitVec.ofNat 32 b <<< 10)

/-- The command word of a well-formed command (30_encoding.md R101, R104). -/
def encode : Instr → Word
  | .nop => commandWord 0x00 0 0
  | .errclr => commandWord 0x01 0 0
  | .sreset => commandWord 0x02 0 0
  | .brd => commandWord 0x03 0 0
  | .vinit a => commandWord 0x10 a 0
  | .vsize a => commandWord 0x11 a 0
  | .vget a => commandWord 0x12 a 0
  | .vset a => commandWord 0x13 a 0
  | .vflip a => commandWord 0x14 a 0
  | .vappend a => commandWord 0x15 a 0
  | .vrdbits a => commandWord 0x16 a 0
  | .vxor a b => commandWord 0x17 a b
  | .vtobytes a => commandWord 0x18 a 0
  | .minit a => commandWord 0x20 a 0
  | .mdim a => commandWord 0x21 a 0
  | .mget a => commandWord 0x22 a 0
  | .mset a => commandWord 0x23 a 0
  | .mflip a => commandWord 0x24 a 0
  | .mfill a => commandWord 0x25 a 0
  | .mgetrow a b => commandWord 0x26 a b
  | .msetrow a b => commandWord 0x27 a b
  | .mrot180 a => commandWord 0x28 a 0
  | .mtop a => commandWord 0x29 a 0
  | .mbot a => commandWord 0x2A a 0
  | .mrect a => commandWord 0x2B a 0

end Sys2Proof
end

