-- ==== Sys2Proof/Config.lean ====
section
/-! DEFINITION. What an instance of the engine fixes (its OPEN parameters) and the one free value of the spec. -/

namespace Sys2Proof

/-- The OPEN size parameters of one engine (00_scope.md R7, 92_eei_decisions.md D4). They never change while the
engine runs; a state carries them so that every statement holds for every legal instance. DESIGN CHOICE, safe (log 3). -/
structure Params where
  /-- `VCAP_BITS`: bits of storage in each vector slot. -/
  vcapBits : Nat
  /-- `MCAP_WORDS`: words of storage in each matrix slot. -/
  mcapWords : Nat
  /-- `BUF_BYTES`: bytes in the byte buffer. -/
  bufBytes : Nat
  deriving DecidableEq, Repr

/-- The defaults of 00_scope.md R7, those of the test vectors. DESIGN CHOICE, unsafe for a claim that rests on them (log 3). -/
def Params.default : Params := { vcapBits := 4096, mcapWords := 8192, bufBytes := 512 }

/-- `VCAP_WORDS = VCAP_BITS / 32` (00_scope.md R7). -/
abbrev Params.vcapWords (p : Params) : Nat := p.vcapBits / 32

/-- The ranges 00_scope.md R7 gives the parameters. -/
abbrev Params.Legal (p : Params) : Prop :=
  p.vcapBits % 32 = 0 ∧ 32 ≤ p.vcapBits ∧ p.vcapBits ≤ 2 ^ 24 ∧
  1 ≤ p.mcapWords ∧ p.mcapWords ≤ 2 ^ 24 ∧ 1 ≤ p.bufBytes ∧ p.bufBytes ≤ 2 ^ 16

/-- FREE VALUE (log 5): what the `n`-th `BRD` of a byte that no `VTOBYTES` has written since reset returns. Any of
0..255, not necessarily the same on two reads (42_control_commands.md R203, 93_implementation_defined.md U3). It has
no body, so a claim that holds, holds whatever it is. -/
opaque Config.freeByte : Nat → Byte

end Sys2Proof
end

