-- ==== Sys2Proof/Machine/State.lean ====
section
/-! DEFINITION. The state of one engine (10_state.md R20), the reasons a step can stop, and the state after reset. -/

namespace Sys2Proof.Machine

/-- Four like things numbered 0 to 3: the slots, and the `ARG`, `RES` and `ERRARG` registers. -/
structure Quad (α : Type) where
  q0 : α
  q1 : α
  q2 : α
  q3 : α
  deriving DecidableEq, Repr

/-- All four the same. -/
abbrev Quad.fill {α : Type} (x : α) : Quad α := ⟨x, x, x, x⟩

/-- Sparse storage: (address, content) pairs. Its one canonical form is said in Machine/Memory.lean. -/
abbrev Sparse (α : Type) := List (Nat × α)

/-- Word storage of one slot: (word index, word) pairs (20_memory.md R60). It holds the LOGICAL bits only: padding bits
and dead words are unspecified at all times (10_state.md R42), so no cell holds a bit of them and a word index that is
not listed has all its logical bits 0. DEDUCED from R42 and R43, safe (log 4). -/
abbrev WordMem := Sparse Word

/-- The byte buffer: the bytes a `VTOBYTES` has written since reset. An index that is not listed has no fixed value. -/
abbrev ByteMem := List Host.Cell

/-- A vector slot: descriptor (10_state.md R36) and private storage `VS(v, ·)` (R38). -/
structure VecSlot where
  size : Nat
  words : WordMem
  deriving DecidableEq, Repr

/-- A matrix slot: descriptor (10_state.md R37) and private storage `MS(m, ·)` (R39). -/
structure MatSlot where
  width : Nat
  height : Nat
  stride : Nat
  words : WordMem
  deriving DecidableEq, Repr

/-- The empty vector (10_state.md R36). -/
def VecSlot.empty : VecSlot := { size := 0, words := [] }

/-- The unconfigured matrix slot (10_state.md R37). -/
def MatSlot.unconfigured : MatSlot := { width := 0, height := 0, stride := 0, words := [] }

/-- The five causes the ENGINE records when a command faults (10_state.md R26, 60_exceptions.md R270). They do not stop
the machine: a faulting command has a next state (R276, R277). -/
inductive Cause where
  | invalidArgument
  | formatMismatch
  | bounds
  | capacity
  | illegalCommand
  deriving DecidableEq, Repr

/-- Why the MODEL stops with a fault. The engine itself never halts (60_exceptions.md R277); both reasons are safe. -/
inductive Fault where
  /-- Raised by a vector command, `MGETROW` or `MSETROW` that would form an address `VS(v, j)` with `j` at or beyond
  `VCAP_WORDS`. 20_memory.md R60 says no rule ever does; from a well-formed state none does. Safe. -/
  | vsAddress
  /-- Raised by a matrix command that would form an address `MS(m, j)` with `j` at or beyond `MCAP_WORDS`. As above. Safe. -/
  | msAddress
  deriving DecidableEq, Repr

/-- Why the model refuses. -/
inductive Refusal where
  /-- Raised by `exec`'s arm of an instruction without a meaning. No arm does. Safe. -/
  | notModelled (mnemonic : String)
  /-- Raised by a host access that is not an aligned 32-bit access at 0x00 .. 0x7C: outside the spec, "a model gives it
  no step (it refuses)" (20_memory.md R71, 93_implementation_defined.md U5). Safe. -/
  | undefinedAccess
  /-- Raised by a command whose slot number is above 3. No command word encodes one (30_encoding.md R102). Safe. -/
  | noSuchSlot
  deriving DecidableEq, Repr

/-- The whole state of one engine (10_state.md R20), the reset line, and the model's own fields at the end. -/
structure State where
  /-- The OPEN parameters, constant in every run, read in `VCAP`, `MCAP`, `BCAP` (R27 to R29). -/
  params : Params
  /-- `ARG0..ARG3` (R21). -/
  arg : Quad Word
  /-- `RES0..RES3` (R22). -/
  res : Quad Word
  /-- `CMD` (R23). -/
  cmd : Word
  /-- `STATUS`: `LASTERR` 3:0, `FIRSTERR` 7:4, `ERRLOG` 12:8, the rest reads 0 (R25). -/
  status : Word
  /-- `ERRCMD` (R30). -/
  errCmd : Word
  /-- `ERRARG0..ERRARG3` (R31). -/
  errArg : Quad Word
  /-- The vector slots: `V[v]` and `VS(v, ·)` (R34, R36, R38). -/
  vec : Quad VecSlot
  /-- The matrix slots: `M[m]` and `MS(m, ·)` (R34, R37, R39). -/
  mat : Quad MatSlot
  /-- The byte buffer `BB` (R40): the bytes written since reset. -/
  bb : ByteMem
  /-- The reset line is asserted (70_reset_and_hazards.md R310). -/
  inReset : Bool
  /-- MODEL'S OWN: the host's events not yet performed, in order (20_memory.md R80; log 1). -/
  events : List HostEvent
  /-- MODEL'S OWN: the values host reads have returned, oldest first (log 2). -/
  reads : List Word
  /-- MODEL'S OWN: the index of the next free value (log 5). -/
  freeCount : Nat
  deriving DecidableEq, Repr

/-- Every piece of state at its reset value (10_state.md R44); the parameters, the reset line and the model's own
fields are given. -/
def State.afterReset (params : Params) (inReset : Bool) (events : List HostEvent) (reads : List Word)
    (freeCount : Nat) : State :=
  { params, arg := Quad.fill 0#32, res := Quad.fill 0#32, cmd := 0#32, status := 0#32, errCmd := 0#32
    errArg := Quad.fill 0#32, vec := Quad.fill VecSlot.empty, mat := Quad.fill MatSlot.unconfigured, bb := []
    inReset, events, reads, freeCount }

/-- The machine right after reset is released (10_state.md R44, 70_reset_and_hazards.md R310), with the default
parameters (log 3), no host access waiting (log 1) and no free value used (log 5). -/
def State.reset : State := State.afterReset Params.default false [] [] 0

end Sys2Proof.Machine
end

