-- ==== Sys2Proof/Machine/Flags.lean ====
section
/-! DEFINITION. The `STATUS` register's fields and the cause codes (10_state.md R25, R26). -/

namespace Sys2Proof.Machine

/-- The 4-bit cause code (10_state.md R26). Code 0 is `OK`; 6 to 15 are never produced. -/
def Cause.code : Cause → BitVec 4
  | .invalidArgument => 1#4
  | .formatMismatch => 2#4
  | .bounds => 3#4
  | .capacity => 4#4
  | .illegalCommand => 5#4

/-- `STATUS.LASTERR`, bits 3:0. -/
def lastErr (status : Word) : BitVec 4 := status.extractLsb' 0 4

/-- `STATUS.FIRSTERR`, bits 7:4. -/
def firstErr (status : Word) : BitVec 4 := status.extractLsb' 4 4

/-- `STATUS.ERRLOG`, bits 12:8. -/
def errLog (status : Word) : BitVec 5 := status.extractLsb' 8 5

/-- The reserved bits 31:13 of `STATUS`, which read 0. -/
def statusReserved (status : Word) : BitVec 19 := status.extractLsb' 13 19

/-- `STATUS.LASTERR <- c`. -/
def setLastErr (status : Word) (c : BitVec 4) : Word := (status &&& 0xFFFFFFF0#32) ||| c.setWidth 32

/-- `STATUS.FIRSTERR <- c`. -/
def setFirstErr (status : Word) (c : BitVec 4) : Word := (status &&& 0xFFFFFF0F#32) ||| (c.setWidth 32 <<< 4)

/-- `STATUS.ERRLOG <- e`. -/
def setErrLog (status : Word) (e : BitVec 5) : Word := (status &&& 0xFFFFE0FF#32) ||| (e.setWidth 32 <<< 8)

/-- `STATUS.ERRLOG | (1 << (c - 1))`: the sticky bit of cause `c` (10_state.md R26, 60_exceptions.md R276). -/
def errLogWith (status : Word) (c : Cause) : BitVec 5 := errLog status ||| (1#5 <<< (c.code.toNat - 1))

/-- `STATUS` after a command that succeeds: `LASTERR <- 0`, the rest kept (10_state.md R25). -/
def statusOnSuccess (status : Word) : Word := setLastErr status 0#4

/-- `STATUS` after a command that faults with cause `c` (60_exceptions.md R276). -/
def statusOnFault (status : Word) (c : Cause) : Word :=
  let logged := setErrLog (setLastErr status c.code) (errLogWith status c)
  if firstErr status = 0#4 then setFirstErr logged c.code else logged

/-- `STATUS` after `ERRCLR`: `FIRSTERR <- 0`, `ERRLOG <- 0` (42_control_commands.md R201). -/
def statusOnErrClr (status : Word) : Word := setErrLog (setFirstErr status 0#4) 0#5

end Sys2Proof.Machine
end

