-- ==== Sys2Proof/Machine/Memory.lean ====
section
/-! DEFINITION. The storage spaces `VS`, `MS` and `BB` (20_memory.md R60): sparse cells in one canonical form, the word
and bit accesses of R62 to R67, and the byte accesses of the byte buffer. -/

namespace Sys2Proof.Machine

/-- Element `k` of four. -/
def Quad.get {α : Type} (q : Quad α) (k : Fin 4) : α :=
  match k with
  | 0 => q.q0
  | 1 => q.q1
  | 2 => q.q2
  | 3 => q.q3

/-- Four things with element `k` replaced. -/
def Quad.set {α : Type} (q : Quad α) (k : Fin 4) (x : α) : Quad α :=
  match k with
  | 0 => { q with q0 := x }
  | 1 => { q with q1 := x }
  | 2 => { q with q2 := x }
  | 3 => { q with q3 := x }

/-- The content listed at address `j`. -/
def Sparse.cellAt {α : Type} : Sparse α → Nat → Option α
  | [], _ => none
  | (k, x) :: rest, j => if k = j then some x else Sparse.cellAt rest j

/-- List `x` at address `j`, in address order, in place of what was listed there. -/
def Sparse.store {α : Type} : Sparse α → Nat → α → Sparse α
  | [], j, x => [(j, x)]
  | (k, y) :: rest, j, x =>
    if j < k then (j, x) :: (k, y) :: rest
    else if j = k then (j, x) :: rest
    else (k, y) :: Sparse.store rest j x

/-- List nothing at address `j`. -/
def Sparse.unlist {α : Type} (m : Sparse α) (j : Nat) : Sparse α := m.filter fun c => c.1 != j

/-- Addresses strictly rise. -/
abbrev Sparse.Rising {α : Type} (m : Sparse α) : Prop := m.Pairwise fun a b => a.1 < b.1

/-- What the logical bits of a storage word that is not listed read as (log 4). -/
def unlistedWord : Word := 0#32

/-- `MemRead` of a storage word, its logical bits (00_scope.md R12, 20_memory.md R60). -/
def WordMem.read (m : WordMem) (j : Nat) : Word := (m.cellAt j).getD unlistedWord

/-- `MemWrite` of a storage word; writing what an unlisted word reads as removes the cell. -/
def WordMem.write (m : WordMem) (j : Nat) (w : Word) : WordMem :=
  if w = unlistedWord then m.unlist j else m.store j w

/-- The canonical form of word storage: addresses strictly rise and no cell holds what an unlisted word reads as. -/
abbrev WordMem.wf (m : WordMem) : Prop := m.Rising ∧ ∀ c ∈ m, c.2 ≠ unlistedWord

/-- The canonical form of the byte buffer: indices strictly rise (every listed byte was written; an unlisted one reads
as no fixed value, so no listed byte can equal it). -/
abbrev ByteMem.wf (m : ByteMem) : Prop := Sparse.Rising m

/-- `n` words written at `base`, `base + 1`, ..., word `base + j` getting `f j`. -/
def WordMem.writeRun (m : WordMem) (base : Nat) (f : Nat → Word) : Nat → WordMem
  | 0 => m
  | n + 1 => WordMem.writeRun (m.write (base + n) (f n)) base f n

/-- `bit(w, k)` for a word in storage: bit `k` of word `j` (00_scope.md R11, 20_memory.md R63, R66). -/
def WordMem.bit (m : WordMem) (j k : Nat) : Bool := (m.read j).getLsbD k

/-- Bit `k` of word `j` replaced: `(w & ~(1 << k)) | (b << k)` (20_memory.md R64, R67). -/
def WordMem.putBit (m : WordMem) (j k : Nat) (b : Bool) : WordMem :=
  m.write j ((m.read j &&& ~~~(1#32 <<< k)) ||| ((BitVec.ofBool b).setWidth 32 <<< k))

/-- The word whose bit `k` is `f k` for `k < n` and 0 from `n` on. -/
def lowBits (f : Nat → Bool) : Nat → Word
  | 0 => 0#32
  | n + 1 => lowBits f n ||| ((BitVec.ofBool (f n)).setWidth 32 <<< n)

/-- The word whose bit `k` is `f k`. -/
def wordOfBits (f : Nat → Bool) : Word := lowBits f 32

/-- `ceil(n / 32)` (00_scope.md R9). -/
def ceilDiv32 (n : Nat) : Nat := (n + 31) / 32

/-- `vbit(v, i)` (20_memory.md R62, R63). -/
def VecSlot.vbit (d : VecSlot) (i : Nat) : Bool := d.words.bit (i / 32) (i % 32)

/-- `vput(v, i, b)` (20_memory.md R64). -/
def VecSlot.vput (d : VecSlot) (i : Nat) (b : Bool) : VecSlot :=
  { d with words := d.words.putBit (i / 32) (i % 32) b }

/-- `vput` of bits `start`, `start + 1`, ..., `start + n - 1`, bit `start + k` getting `f k`, in that order. -/
def VecSlot.vputRun (d : VecSlot) (start : Nat) (f : Nat → Bool) : Nat → VecSlot
  | 0 => d
  | n + 1 => (VecSlot.vputRun d start f n).vput (start + n) (f n)

/-- The `n`-bit field at `off`, the bit of lowest index first (the loop of 40_vector_commands.md R136). -/
def VecSlot.field (d : VecSlot) (off : Nat) : Nat → Word
  | 0 => 0#32
  | n + 1 => (VecSlot.field d off n <<< 1) ||| (BitVec.ofBool (d.vbit (off + n))).setWidth 32

/-- The byte whose bit 7 is the vector's bit `off` and whose bit 0 is bit `off + 7`: the first `n` steps of the inner
loop of 40_vector_commands.md R138. -/
def VecSlot.byteSteps (d : VecSlot) (off : Nat) : Nat → Byte
  | 0 => 0#8
  | n + 1 => VecSlot.byteSteps d off n ||| ((BitVec.ofBool (d.vbit (off + n))).setWidth 8 <<< (7 - n))

/-- The serialised byte that starts at bit `off` (40_vector_commands.md R138). -/
def VecSlot.byteAt (d : VecSlot) (off : Nat) : Byte := d.byteSteps off 8

/-- Bytes `base .. base + n - 1` of the buffer written, byte `base + j` getting `f j` (20_memory.md R60). -/
def ByteMem.writeRun (m : ByteMem) (base : Nat) (f : Nat → Byte) : Nat → ByteMem
  | 0 => m
  | n + 1 => ByteMem.writeRun (Sparse.store m (base + n) (f n)) base f n

/-- The byte a `VTOBYTES` has written at index `k` since reset, if one has (10_state.md R40). -/
def ByteMem.byteAt? (m : ByteMem) (k : Nat) : Option Byte := Sparse.cellAt m k

/-- The word of slot storage that holds logical bit `(x, y)` (20_memory.md R65). -/
def MatSlot.wordIndex (d : MatSlot) (x y : Nat) : Nat := y * d.stride + x / 32

/-- `mbit(m, x, y)` (20_memory.md R66). -/
def MatSlot.mbit (d : MatSlot) (x y : Nat) : Bool := d.words.bit (d.wordIndex x y) (x % 32)

/-- `mput(m, x, y, b)` (20_memory.md R67). -/
def MatSlot.mput (d : MatSlot) (x y : Nat) (b : Bool) : MatSlot :=
  { d with words := d.words.putBit (d.wordIndex x y) (x % 32) b }

/-- The matrix of the same dimensions whose logical bit `(x, y)` is `f x y`, written word by word: `mput(m, x, y, f x y)`
for every `x < width` and `y < height`. The order of the writes is not observable (41_matrix_commands.md R165, R168);
no bit of a row beyond `width` is held (10_state.md R42). -/
def MatSlot.rewrite (d : MatSlot) (f : Nat → Nat → Bool) : MatSlot :=
  { d with
    words := WordMem.writeRun [] 0
      (fun j => wordOfBits fun k =>
        decide (32 * (j % d.stride) + k < d.width) && f (32 * (j % d.stride) + k) (j / d.stride))
      (d.stride * d.height) }

/-- The least `i < n` with `p i`. -/
def leastBelow (p : Nat → Bool) (n : Nat) : Option Nat := (List.range n).find? p

/-- The greatest `i < n` with `p i`. -/
def greatestBelow (p : Nat → Bool) : Nat → Option Nat
  | 0 => none
  | n + 1 => if p n then some n else greatestBelow p n

/-- Row `y` has a set logical bit. -/
def MatSlot.rowHasBit (d : MatSlot) (y : Nat) : Bool := (List.range d.width).any fun x => d.mbit x y

/-- Column `x` has a set logical bit. -/
def MatSlot.colHasBit (d : MatSlot) (x : Nat) : Bool := (List.range d.height).any fun y => d.mbit x y

/-- `(x0, y0)` of `MTOP`: the least `y` of a set bit, and the least `x` set in that row (41_matrix_commands.md R169). -/
def MatSlot.topBit (d : MatSlot) : Option (Nat × Nat) :=
  (leastBelow d.rowHasBit d.height).bind fun y => (leastBelow (fun x => d.mbit x y) d.width).map fun x => (x, y)

/-- `(x1, y1)` of `MBOT`: the greatest `y` of a set bit, and the greatest `x` set in that row (R170). -/
def MatSlot.bottomBit (d : MatSlot) : Option (Nat × Nat) :=
  (greatestBelow d.rowHasBit d.height).bind fun y => (greatestBelow (fun x => d.mbit x y) d.width).map fun x => (x, y)

end Sys2Proof.Machine
end

