-- ==== Sys2Proof/Machine/Operands.lean ====
section
/-! DEFINITION. Operands: the `ARG` registers as natural numbers and their assignment to commands (30_encoding.md R103,
R108; 00_scope.md R9, R10), and numbers as results. -/

namespace Sys2Proof.Machine

/-- Operand `k`: the whole value of `ARGk`, unsigned, in the naturals (30_encoding.md R103, 00_scope.md R9). -/
def State.argNat (s : State) (k : Fin 4) : Nat := (s.arg.get k).toNat

/-- `neg(v)`: bit 31 is set, `v >= 2^31` (00_scope.md R10). -/
abbrev neg (v : Nat) : Prop := 2 ^ 31 ≤ v

/-- The operand registers a command reads, in order (the table of 30_encoding.md R103). -/
def operandRegs : Instr → List (Fin 4)
  | .nop => []
  | .errclr => []
  | .sreset => []
  | .brd => [0]
  | .vinit _ => [0]
  | .vsize _ => []
  | .vget _ => [0]
  | .vset _ => [0]
  | .vflip _ => [0]
  | .vappend _ => [0, 1]
  | .vrdbits _ => [0, 1]
  | .vxor _ _ => []
  | .vtobytes _ => [0, 1, 2]
  | .minit _ => [0, 1]
  | .mdim _ => []
  | .mget _ => [0, 1]
  | .mset _ => [0, 1]
  | .mflip _ => [0, 1]
  | .mfill _ => [0, 1, 2, 3]
  | .mgetrow _ _ => [0]
  | .msetrow _ _ => [0]
  | .mrot180 _ => []
  | .mtop _ => []
  | .mbot _ => []
  | .mrect _ => []

/-- A number as a 32-bit result; every number a rule forms is below 2^32 (00_scope.md R9, 30_encoding.md R108). -/
def resultOf (n : Nat) : Word := BitVec.ofNat 32 n

/-- `zext_32` of one bit (00_scope.md R12). -/
def resultOfBit (b : Bool) : Word := (BitVec.ofBool b).setWidth 32

/-- The four results of a command that names none: all 0 (10_state.md R22). -/
def noResults : Quad Word := Quad.fill 0#32

/-- `RES0 <- r`, the others 0. -/
def result0 (r : Word) : Quad Word := ⟨r, 0#32, 0#32, 0#32⟩

/-- `RES0`, `RES1`, `RES2` named, `RES3` 0. -/
def results3 (r0 r1 r2 : Word) : Quad Word := ⟨r0, r1, r2, 0#32⟩

end Sys2Proof.Machine
end

