-- ==== Sys2Proof/Machine/Ops.lean ====
section
/-! DEFINITION. What commands share: success, taking a fault and the return from one, slots, and which storage addresses
exist. -/

namespace Sys2Proof.Machine

/-- What a meaning answers. -/
abbrev Result := Host.Outcome State Fault Refusal

/-- A command that succeeds writes all four `RES` and sets `LASTERR` to 0 (10_state.md R22, R25). -/
def State.succeed (s : State) (r : Quad Word) : State :=
  { s with res := r, status := statusOnSuccess s.status }

/-- TAKING A FAULT (60_exceptions.md R276, nesting R285): `LASTERR` and the sticky bit always; `FIRSTERR`, `ERRCMD` and
`ERRARG0..3` only if `FIRSTERR` was 0. The faulting word is in `CMD` already (10_state.md R23). Nothing else changes and
control goes nowhere (R270, R277). -/
def State.takeFault (s : State) (c : Cause) : State :=
  { s with
    status := statusOnFault s.status c
    errCmd := if firstErr s.status = 0#4 then s.cmd else s.errCmd
    errArg := if firstErr s.status = 0#4 then s.arg else s.errArg }

/-- THE RETURN FROM A FAULT: the fault record cleared, which re-arms the first-fault capture (42_control_commands.md
R201, 60_exceptions.md R284). -/
def State.clearFaultRecord (s : State) : State :=
  { s with status := statusOnErrClr s.status, errCmd := 0#32, errArg := Quad.fill 0#32 }

/-- Every piece of the engine's state at its reset value (10_state.md R44). The parameters are constants; the model's own
fields are not the engine's, and `freeCount` goes on so that an unspecified byte after a reset is not tied to one
before it (log 5). -/
def State.toReset (s : State) (inReset : Bool) : State :=
  State.afterReset s.params inReset s.events s.reads s.freeCount

/-- The slot a slot number names; a number above 3 names none and no command word encodes it (30_encoding.md R102). -/
def withSlot (a : Nat) (k : Fin 4 → Result) : Result :=
  if h : a < 4 then k ⟨a, h⟩ else .refused .noSuchSlot

/-- The state with vector slot `v` replaced. -/
def State.setVec (s : State) (v : Fin 4) (d : VecSlot) : State := { s with vec := s.vec.set v d }

/-- The state with matrix slot `m` replaced. -/
def State.setMat (s : State) (m : Fin 4) (d : MatSlot) : State := { s with mat := s.mat.set m d }

/-- The words `base .. base + n - 1` of a space of `cap` words exist (20_memory.md R60). -/
abbrev wordsExist (cap base n : Nat) : Prop := n = 0 ∨ base + n ≤ cap

/-- The words that hold bits `off .. off + n - 1` of a vector slot exist. -/
abbrev State.vsBitsExist (s : State) (off n : Nat) : Prop := n = 0 ∨ off + n ≤ 32 * s.params.vcapWords

/-- Words `0 .. n - 1` of a vector slot exist. -/
abbrev State.vsWordsExist (s : State) (n : Nat) : Prop := wordsExist s.params.vcapWords 0 n

/-- Words `base .. base + n - 1` of a matrix slot exist. -/
abbrev State.msWordsExist (s : State) (base n : Nat) : Prop := wordsExist s.params.mcapWords base n

/-- The check *configured* of 41_matrix_commands.md: `W != 0` (10_state.md R37). -/
abbrev MatSlot.configured (d : MatSlot) : Prop := d.width ≠ 0

/-- All live words of the matrix in slot `d` exist (10_state.md R39). -/
abbrev State.msLiveExist (s : State) (d : MatSlot) : Prop := s.msWordsExist 0 (d.stride * d.height)

/-- The canonical form of every storage space (Machine/Memory.lean says it of one). -/
abbrev Memory.wf (s : State) : Prop :=
  (∀ v, (s.vec.get v).words.wf) ∧ (∀ m, (s.mat.get m).words.wf) ∧ ByteMem.wf s.bb

end Sys2Proof.Machine
end

