-- ==== Sys2Proof/Machine/Control.lean ====
section
/-! DEFINITION. The control commands (42_control_commands.md R200 to R203). -/

namespace Sys2Proof.Machine

/-- `NOP` (R200): clears `LASTERR` and `RES` like any successful command. -/
def execNop (s : State) : Result := .next (s.succeed noResults)

/-- `ERRCLR` (R201): the return from a fault (60_exceptions.md R284). -/
def execErrclr (s : State) : Result := .next (s.clearFaultRecord.succeed noResults)

/-- `SRESET` (R202): every piece of state at its reset value, but `CMD` keeps the word just written. `ARG0..3` become 0
as R202 says, against the general sentence of 10_state.md R21 (log 6). -/
def execSreset (s : State) : Result := .next { s.toReset s.inReset with cmd := s.cmd }

/-- `BRD` (R203): a byte that no `VTOBYTES` has written since reset is a FREE VALUE (93_implementation_defined.md U3;
log 5); the command succeeds all the same. -/
def execBrd (s : State) : Result :=
  let k := s.argNat 0
  if s.params.bufBytes ≤ k then .next (s.takeFault .bounds)
  else match ByteMem.byteAt? s.bb k with
    | some b => .next (s.succeed (result0 (b.setWidth 32)))
    | none =>
      .next { s.succeed (result0 ((Config.freeByte s.freeCount).setWidth 32)) with freeCount := s.freeCount + 1 }

end Sys2Proof.Machine
end

