-- ==== Sys2Proof/Machine/MatrixCommands.lean ====
section
/-! DEFINITION. The matrix commands (41_matrix_commands.md R160 to R171). In each, `a` is the matrix slot of field `A`;
every command but `MINIT` and `MDIM` first checks that the slot is configured. -/

namespace Sys2Proof.Machine

/-- `MINIT` (R160): a `width` × `height` matrix, all bits 0. As for `VINIT`, nothing stays listed (log 4). -/
def execMinit (a : Nat) (s : State) : Result :=
  withSlot a fun m =>
    let width := s.argNat 0
    let height := s.argNat 1
    let stride := ceilDiv32 width
    if width = 0 ∨ height = 0 ∨ neg width ∨ neg height then .next (s.takeFault .invalidArgument)
    else if s.params.mcapWords < stride * height then .next (s.takeFault .capacity)
    else
      .next ((s.setMat m { width := width, height := height, stride := stride, words := [] }).succeed
        (results3 (resultOf width) (resultOf height) (resultOf stride)))

/-- `MDIM` (R161): zeros on an unconfigured slot, without a fault. -/
def execMdim (a : Nat) (s : State) : Result :=
  withSlot a fun m =>
    let d := s.mat.get m
    .next (s.succeed (results3 (resultOf d.width) (resultOf d.height) (resultOf d.stride)))

/-- `MGET` (R162). -/
def execMget (a : Nat) (s : State) : Result :=
  withSlot a fun m =>
    let d := s.mat.get m
    let x := s.argNat 0
    let y := s.argNat 1
    if ¬ d.configured then .next (s.takeFault .invalidArgument)
    else if d.width ≤ x ∨ d.height ≤ y then .next (s.takeFault .bounds)
    else if ¬ s.msWordsExist (d.wordIndex x y) 1 then .fault .msAddress
    else .next (s.succeed (result0 (resultOfBit (d.mbit x y))))

/-- `MSET` (R163): `mput(m, x, y, 1)`. -/
def execMset (a : Nat) (s : State) : Result :=
  withSlot a fun m =>
    let d := s.mat.get m
    let x := s.argNat 0
    let y := s.argNat 1
    if ¬ d.configured then .next (s.takeFault .invalidArgument)
    else if d.width ≤ x ∨ d.height ≤ y then .next (s.takeFault .bounds)
    else if ¬ s.msWordsExist (d.wordIndex x y) 1 then .fault .msAddress
    else .next ((s.setMat m (d.mput x y true)).succeed noResults)

/-- `MFLIP` (R164): `mput(m, x, y, 1 - mbit(m, x, y))`. -/
def execMflip (a : Nat) (s : State) : Result :=
  withSlot a fun m =>
    let d := s.mat.get m
    let x := s.argNat 0
    let y := s.argNat 1
    if ¬ d.configured then .next (s.takeFault .invalidArgument)
    else if d.width ≤ x ∨ d.height ≤ y then .next (s.takeFault .bounds)
    else if ¬ s.msWordsExist (d.wordIndex x y) 1 then .fault .msAddress
    else .next ((s.setMat m (d.mput x y (!d.mbit x y))).succeed noResults)

/-- The rectangle of `w` columns and `h` rows whose top-left corner is `(left, top)` (R165). -/
def inRegion (left top w h x y : Nat) : Bool :=
  decide (left ≤ x ∧ x < left + w ∧ top ≤ y ∧ y < top + h)

/-- `MFILL` (R165): every bit of the region becomes 1, the others stay. -/
def execMfill (a : Nat) (s : State) : Result :=
  withSlot a fun m =>
    let d := s.mat.get m
    let left := s.argNat 0
    let top := s.argNat 1
    let w := s.argNat 2
    let h := s.argNat 3
    if ¬ d.configured then .next (s.takeFault .invalidArgument)
    else if w = 0 ∨ h = 0 ∨ neg w ∨ neg h then .next (s.takeFault .invalidArgument)
    else if d.width < left + w ∨ d.height < top + h then .next (s.takeFault .invalidArgument)
    else if ¬ s.msLiveExist d then .fault .msAddress
    else
      .next ((s.setMat m (d.rewrite fun x y => inRegion left top w h x y || d.mbit x y)).succeed noResults)

/-- `MGETROW` (R166): row `y` copied word by word into vector slot `b`, whose former content is dead. -/
def execMgetrow (a b : Nat) (s : State) : Result :=
  withSlot a fun m => withSlot b fun v =>
    let d := s.mat.get m
    let y := s.argNat 0
    if ¬ d.configured then .next (s.takeFault .invalidArgument)
    else if d.height ≤ y then .next (s.takeFault .bounds)
    else if s.params.vcapBits < d.width then .next (s.takeFault .capacity)
    else if ¬ s.msWordsExist (y * d.stride) d.stride then .fault .msAddress
    else if ¬ s.vsWordsExist d.stride then .fault .vsAddress
    else
      let row := WordMem.writeRun [] 0 (fun j => d.words.read (y * d.stride + j)) d.stride
      .next ((s.setVec v { size := d.width, words := row }).succeed (result0 (resultOf d.width)))

/-- `MSETROW` (R167): vector slot `b` copied word by word into row `y`. -/
def execMsetrow (a b : Nat) (s : State) : Result :=
  withSlot a fun m => withSlot b fun v =>
    let d := s.mat.get m
    let y := s.argNat 0
    if ¬ d.configured then .next (s.takeFault .invalidArgument)
    else if d.height ≤ y then .next (s.takeFault .bounds)
    else if (s.vec.get v).size ≠ d.width then .next (s.takeFault .formatMismatch)
    else if ¬ s.msWordsExist (y * d.stride) d.stride then .fault .msAddress
    else if ¬ s.vsWordsExist d.stride then .fault .vsAddress
    else
      let words := d.words.writeRun (y * d.stride) (fun j => (s.vec.get v).words.read j) d.stride
      .next ((s.setMat m { d with words := words }).succeed noResults)

/-- `MROT180` (R168): `(x, y) <- old(W - 1 - x, H - 1 - y)` for every logical bit. -/
def execMrot180 (a : Nat) (s : State) : Result :=
  withSlot a fun m =>
    let d := s.mat.get m
    if ¬ d.configured then .next (s.takeFault .invalidArgument)
    else if ¬ s.msLiveExist d then .fault .msAddress
    else
      .next ((s.setMat m (d.rewrite fun x y => d.mbit (d.width - 1 - x) (d.height - 1 - y))).succeed noResults)

/-- `MTOP` (R169): found, x, y; all 0 if no logical bit is set. -/
def execMtop (a : Nat) (s : State) : Result :=
  withSlot a fun m =>
    let d := s.mat.get m
    if ¬ d.configured then .next (s.takeFault .invalidArgument)
    else if ¬ s.msLiveExist d then .fault .msAddress
    else match d.topBit with
      | none => .next (s.succeed noResults)
      | some (x, y) => .next (s.succeed (results3 1#32 (resultOf x) (resultOf y)))

/-- `MBOT` (R170): found, x, y; all 0 if no logical bit is set. -/
def execMbot (a : Nat) (s : State) : Result :=
  withSlot a fun m =>
    let d := s.mat.get m
    if ¬ d.configured then .next (s.takeFault .invalidArgument)
    else if ¬ s.msLiveExist d then .fault .msAddress
    else match d.bottomBit with
      | none => .next (s.succeed noResults)
      | some (x, y) => .next (s.succeed (results3 1#32 (resultOf x) (resultOf y)))

/-- `left, top, width, height` of the set bits of a matrix, all 0 if there is none (R171): `l`, `r` the least and
greatest column with a set bit, `t`, `b` the least and greatest row. -/
def MatSlot.enclosingRect (d : MatSlot) : Quad Word :=
  match leastBelow d.colHasBit d.width, greatestBelow d.colHasBit d.width,
      leastBelow d.rowHasBit d.height, greatestBelow d.rowHasBit d.height with
  | some l, some r, some t, some b => ⟨resultOf l, resultOf t, resultOf (r - l + 1), resultOf (b - t + 1)⟩
  | _, _, _, _ => noResults

/-- `MRECT` (R171). -/
def execMrect (a : Nat) (s : State) : Result :=
  withSlot a fun m =>
    let d := s.mat.get m
    if ¬ d.configured then .next (s.takeFault .invalidArgument)
    else if ¬ s.msLiveExist d then .fault .msAddress
    else .next (s.succeed d.enclosingRect)

end Sys2Proof.Machine
end

