-- ==== Sys2Proof/Machine/VectorCommands.lean ====
section
/-! DEFINITION. The vector commands (40_vector_commands.md R130 to R138). In each, `a` is the vector slot of field `A`,
the checks stand in the order of the rule (60_exceptions.md R278), and a failing check takes its fault. -/

namespace Sys2Proof.Machine

/-- `VINIT` (R130): `size` bits, all 0. The loop writes 0 to every live word and the former content is dead, so nothing
stays listed (10_state.md R42; log 4). -/
def execVinit (a : Nat) (s : State) : Result :=
  withSlot a fun v =>
    let size := s.argNat 0
    if neg size then .next (s.takeFault .invalidArgument)
    else if s.params.vcapBits < size then .next (s.takeFault .capacity)
    else if ¬ s.vsWordsExist (ceilDiv32 size) then .fault .vsAddress
    else .next ((s.setVec v { size := size, words := [] }).succeed (result0 (resultOf size)))

/-- `VSIZE` (R131). -/
def execVsize (a : Nat) (s : State) : Result :=
  withSlot a fun v => .next (s.succeed (result0 (resultOf (s.vec.get v).size)))

/-- `VGET` (R132). -/
def execVget (a : Nat) (s : State) : Result :=
  withSlot a fun v =>
    let i := s.argNat 0
    if (s.vec.get v).size ≤ i then .next (s.takeFault .bounds)
    else if ¬ s.vsBitsExist i 1 then .fault .vsAddress
    else .next (s.succeed (result0 (resultOfBit ((s.vec.get v).vbit i))))

/-- `VSET` (R133): `vput(v, i, 1)`. -/
def execVset (a : Nat) (s : State) : Result :=
  withSlot a fun v =>
    let i := s.argNat 0
    if (s.vec.get v).size ≤ i then .next (s.takeFault .bounds)
    else if ¬ s.vsBitsExist i 1 then .fault .vsAddress
    else .next ((s.setVec v ((s.vec.get v).vput i true)).succeed noResults)

/-- `VFLIP` (R134): `vput(v, i, 1 - vbit(v, i))`. -/
def execVflip (a : Nat) (s : State) : Result :=
  withSlot a fun v =>
    let i := s.argNat 0
    if (s.vec.get v).size ≤ i then .next (s.takeFault .bounds)
    else if ¬ s.vsBitsExist i 1 then .fault .vsAddress
    else .next ((s.setVec v ((s.vec.get v).vput i (!(s.vec.get v).vbit i))).succeed noResults)

/-- `VAPPEND` (R135): bit `n - 1 - k` of `value` becomes logical bit `size + k`, for `k = 0 .. n - 1`; the higher bits
of `value` are ignored. -/
def execVappend (a : Nat) (s : State) : Result :=
  withSlot a fun v =>
    let value := s.arg.get 0
    let n := s.argNat 1
    let size := (s.vec.get v).size
    if 32 < n then .next (s.takeFault .invalidArgument)
    else if s.params.vcapBits < size + n then .next (s.takeFault .capacity)
    else if ¬ s.vsBitsExist size n then .fault .vsAddress
    else
      let filled := (s.vec.get v).vputRun size (fun k => value.getLsbD (n - 1 - k)) n
      .next ((s.setVec v { filled with size := size + n }).succeed (result0 (resultOf (size + n))))

/-- `VRDBITS` (R136): the bit of lowest index is the most significant of the result. -/
def execVrdbits (a : Nat) (s : State) : Result :=
  withSlot a fun v =>
    let offset := s.argNat 0
    let n := s.argNat 1
    if 32 < n then .next (s.takeFault .invalidArgument)
    else if (s.vec.get v).size < offset + n then .next (s.takeFault .bounds)
    else if ¬ s.vsBitsExist offset n then .fault .vsAddress
    else .next (s.succeed (result0 ((s.vec.get v).field offset n)))

/-- `VXOR` (R137): word by word, `a` the destination, `b` the source, which may be the same slot (R325). -/
def execVxor (a b : Nat) (s : State) : Result :=
  withSlot a fun d => withSlot b fun c =>
    let dst := s.vec.get d
    let src := s.vec.get c
    if dst.size ≠ src.size then .next (s.takeFault .formatMismatch)
    else if ¬ s.vsWordsExist (ceilDiv32 dst.size) then .fault .vsAddress
    else
      let words := dst.words.writeRun 0 (fun j => dst.words.read j ^^^ src.words.read j) (ceilDiv32 dst.size)
      .next ((s.setVec d { dst with words := words }).succeed noResults)

/-- `VTOBYTES` (R138): whole bytes, the bit of lowest index first, into the byte buffer. -/
def execVtobytes (a : Nat) (s : State) : Result :=
  withSlot a fun v =>
    let bitOffset := s.argNat 0
    let bufOffset := s.argNat 1
    let numBytes := s.argNat 2
    if (s.vec.get v).size < bitOffset + 8 * numBytes then .next (s.takeFault .bounds)
    else if s.params.bufBytes < bufOffset + numBytes then .next (s.takeFault .capacity)
    else if ¬ s.vsBitsExist bitOffset (8 * numBytes) then .fault .vsAddress
    else
      let bytes := ByteMem.writeRun s.bb bufOffset (fun j => (s.vec.get v).byteAt (bitOffset + 8 * j)) numBytes
      .next (State.succeed { s with bb := bytes } (result0 (resultOf numBytes)))

end Sys2Proof.Machine
end

