-- ==== Sys2Proof/Machine/Dispatch.lean ====
section
/-! DEFINITION. `exec`: one arm per command, each one call of its meaning. -/

namespace Sys2Proof.Machine

def exec (i : Instr) (s : State) : Host.Outcome State Fault Refusal :=
  match i with
  | .nop => Sys2Proof.Machine.execNop s
  | .errclr => Sys2Proof.Machine.execErrclr s
  | .sreset => Sys2Proof.Machine.execSreset s
  | .brd => Sys2Proof.Machine.execBrd s
  | .vinit a => Sys2Proof.Machine.execVinit a s
  | .vsize a => Sys2Proof.Machine.execVsize a s
  | .vget a => Sys2Proof.Machine.execVget a s
  | .vset a => Sys2Proof.Machine.execVset a s
  | .vflip a => Sys2Proof.Machine.execVflip a s
  | .vappend a => Sys2Proof.Machine.execVappend a s
  | .vrdbits a => Sys2Proof.Machine.execVrdbits a s
  | .vxor a b => Sys2Proof.Machine.execVxor a b s
  | .vtobytes a => Sys2Proof.Machine.execVtobytes a s
  | .minit a => Sys2Proof.Machine.execMinit a s
  | .mdim a => Sys2Proof.Machine.execMdim a s
  | .mget a => Sys2Proof.Machine.execMget a s
  | .mset a => Sys2Proof.Machine.execMset a s
  | .mflip a => Sys2Proof.Machine.execMflip a s
  | .mfill a => Sys2Proof.Machine.execMfill a s
  | .mgetrow a b => Sys2Proof.Machine.execMgetrow a b s
  | .msetrow a b => Sys2Proof.Machine.execMsetrow a b s
  | .mrot180 a => Sys2Proof.Machine.execMrot180 a s
  | .mtop a => Sys2Proof.Machine.execMtop a s
  | .mbot a => Sys2Proof.Machine.execMbot a s
  | .mrect a => Sys2Proof.Machine.execMrect a s

end Sys2Proof.Machine
end

