-- ==== Sys2Proof/Machine/Registers.lean ====
section
/-! DEFINITION. The register block (10_state.md R27 to R33), the execution of a command word (R23), and what one host event
does (20_memory.md R80, 70_reset_and_hazards.md R310). -/

namespace Sys2Proof.Machine

/-- The locations of the register map (10_state.md R32). -/
inductive Reg where
  | id
  | vcap
  | mcap
  | bcap
  | arg (k : Fin 4)
  | cmd
  | status
  | res (k : Fin 4)
  | errCmd
  | errArg (k : Fin 4)
  | reserved
  deriving DecidableEq, Repr

/-- The register at a byte offset (10_state.md R32). -/
def regAt (offset : Nat) : Reg :=
  match offset with
  | 0x00 => .id
  | 0x04 => .vcap
  | 0x08 => .mcap
  | 0x0C => .bcap
  | 0x10 => .arg 0
  | 0x14 => .arg 1
  | 0x18 => .arg 2
  | 0x1C => .arg 3
  | 0x20 => .cmd
  | 0x24 => .status
  | 0x28 => .res 0
  | 0x2C => .res 1
  | 0x30 => .res 2
  | 0x34 => .res 3
  | 0x38 => .errCmd
  | 0x40 => .errArg 0
  | 0x44 => .errArg 1
  | 0x48 => .errArg 2
  | 0x4C => .errArg 3
  | _ => .reserved

/-- The offset of `ARGk` (10_state.md R32). -/
def argOffset (k : Fin 4) : Nat := 0x10 + 4 * k.val

/-- The offset of `CMD` (10_state.md R32). -/
def cmdOffset : Nat := 0x20

/-- The constant value of `ID`: `REV` 1, `WORD_BITS` 32, `NM` 4, `NV` 4 (10_state.md R27). -/
def idValue : Word := 0x00012044#32

/-- What a host read of a register returns; no read has a side effect, reserved locations read 0 (R33). -/
def State.readReg (s : State) (r : Reg) : Word :=
  match r with
  | .id => idValue
  | .vcap => resultOf s.params.vcapBits
  | .mcap => resultOf s.params.mcapWords
  | .bcap => resultOf s.params.bufBytes
  | .arg k => s.arg.get k
  | .cmd => s.cmd
  | .status => s.status
  | .res k => s.res.get k
  | .errCmd => s.errCmd
  | .errArg k => s.errArg.get k
  | .reserved => 0#32

/-- A host write of `cw` to `CMD`: `CMD` holds it, and the command it encodes runs to completion (10_state.md R23,
20_memory.md R81); an illegal word raises `IllegalCommand` and does nothing else (30_encoding.md R105). -/
def runCommandWord (cw : Word) (s : State) : Result :=
  match decode cw with
  | .ok i => exec i { s with cmd := cw }
  | .error _ => .next (State.takeFault { s with cmd := cw } .illegalCommand)

/-- A host write of a register: `ARG` stores, `CMD` stores and executes, every other location ignores the write
(10_state.md R21, R23, R33). -/
def State.writeReg (s : State) (r : Reg) (value : Word) : Result :=
  match r with
  | .arg k => .next { s with arg := s.arg.set k value }
  | .cmd => runCommandWord value s
  | .id => .next s
  | .vcap => .next s
  | .mcap => .next s
  | .bcap => .next s
  | .status => .next s
  | .res _ => .next s
  | .errCmd => .next s
  | .errArg _ => .next s
  | .reserved => .next s

/-- One host event. An access the spec does not define is refused (20_memory.md R71, log 10); a defined one is ignored
while reset is asserted (70_reset_and_hazards.md R310) and otherwise takes effect completely (20_memory.md R80). The
reset line's events set the state of R44, when reset is asserted and again when it is released (log 11). -/
def performEvent (e : HostEvent) (s : State) : Result :=
  match e with
  | .write width offset value =>
    if ¬ AccessOk width offset then .refused .undefinedAccess
    else if s.inReset then .next s
    else s.writeReg (regAt offset) value
  | .read width offset =>
    if ¬ AccessOk width offset then .refused .undefinedAccess
    else if s.inReset then .next s
    else .next { s with reads := s.reads ++ [s.readReg (regAt offset)] }
  | .reset true => .next (s.toReset true)
  | .reset false => if s.inReset then .next (s.toReset false) else .next s

end Sys2Proof.Machine
end

