-- ==== Sys2Proof/Machine/Step.lean ====
section
/-! DEFINITION. One step of the machine: the host's next event (20_memory.md R80). -/

namespace Sys2Proof.Machine

/-- One step. With no event waiting the engine is idle and loses nothing (60_exceptions.md R291, 70_reset_and_hazards.md
R310); otherwise the oldest event is taken from the list and performed (20_memory.md R80; log 1). -/
def step (s : State) : Host.Outcome State Fault Refusal :=
  match s.events with
  | [] => .next s
  | e :: rest => performEvent e { s with events := rest }

/-- `s` with a host write of the command word `w` (its low `nbits` bits) as the host's next access, reset not asserted,
so that the next step stores it in `CMD` and runs it (10_state.md R23; log 1). -/
def State.withFetchWord (s : State) (nbits w : Nat) : State :=
  { s with inReset := false, events := HostEvent.W cmdOffset (BitVec.ofNat 32 (w % 2 ^ nbits)) :: s.events }

end Sys2Proof.Machine
end

