-- ==== Sys2Proof/Machine/Assembler.lean ====
section
/-! DEFINITION. The assembler notation (30_encoding.md R109 to R111) and programs as data (R120). -/

namespace Sys2Proof.Machine

/-- The mnemonic of a command (30_encoding.md R104). -/
def mnemonic : Instr → String
  | .nop => "NOP"
  | .errclr => "ERRCLR"
  | .sreset => "SRESET"
  | .brd => "BRD"
  | .vinit _ => "VINIT"
  | .vsize _ => "VSIZE"
  | .vget _ => "VGET"
  | .vset _ => "VSET"
  | .vflip _ => "VFLIP"
  | .vappend _ => "VAPPEND"
  | .vrdbits _ => "VRDBITS"
  | .vxor _ _ => "VXOR"
  | .vtobytes _ => "VTOBYTES"
  | .minit _ => "MINIT"
  | .mdim _ => "MDIM"
  | .mget _ => "MGET"
  | .mset _ => "MSET"
  | .mflip _ => "MFLIP"
  | .mfill _ => "MFILL"
  | .mgetrow _ _ => "MGETROW"
  | .msetrow _ _ => "MSETROW"
  | .mrot180 _ => "MROT180"
  | .mtop _ => "MTOP"
  | .mbot _ => "MBOT"
  | .mrect _ => "MRECT"

/-- The slot names of a command in the order `A`, `B`: `v0..v3` for vector slots, `m0..m3` for matrix slots (R109). -/
def slotNames : Instr → List String
  | .nop => []
  | .errclr => []
  | .sreset => []
  | .brd => []
  | .vinit a => ["v" ++ toString a]
  | .vsize a => ["v" ++ toString a]
  | .vget a => ["v" ++ toString a]
  | .vset a => ["v" ++ toString a]
  | .vflip a => ["v" ++ toString a]
  | .vappend a => ["v" ++ toString a]
  | .vrdbits a => ["v" ++ toString a]
  | .vxor a b => ["v" ++ toString a, "v" ++ toString b]
  | .vtobytes a => ["v" ++ toString a]
  | .minit a => ["m" ++ toString a]
  | .mdim a => ["m" ++ toString a]
  | .mget a => ["m" ++ toString a]
  | .mset a => ["m" ++ toString a]
  | .mflip a => ["m" ++ toString a]
  | .mfill a => ["m" ++ toString a]
  | .mgetrow a b => ["m" ++ toString a, "v" ++ toString b]
  | .msetrow a b => ["m" ++ toString a, "v" ++ toString b]
  | .mrot180 a => ["m" ++ toString a]
  | .mtop a => ["m" ++ toString a]
  | .mbot a => ["m" ++ toString a]
  | .mrect a => ["m" ++ toString a]

/-- One line of assembler: a command with its operands (R109), a pseudo-command (R111), or `.read` of a register by its
offset (R111). The operand of `VAPPENDBYTE` is an 8-bit value. DESIGN CHOICE, safe (log 18): R111 bounds `b` of
`VAPPENDBIT` to 0 and 1 but does not say whether `byte` may exceed 255. -/
inductive AsmLine where
  | command (i : Instr) (operands : List Word)
  | vappendBit (a : Nat) (b : Bool)
  | vappendByte (a : Nat) (byte : Byte)
  | vempty (a : Nat)
  | read (offset : Nat)
  deriving DecidableEq, Repr

/-- The text of a command line, its operands in decimal (R109). -/
def commandText (i : Instr) (operands : List Word) : String :=
  match slotNames i ++ operands.map fun v => toString v.toNat with
  | [] => mnemonic i
  | parts => mnemonic i ++ " " ++ String.intercalate ", " parts

/-- The host accesses a command line stands for: each operand register the command reads, in order, then `CMD` (R110).
A line whose number of operands is not the number the command reads is none the spec defines. DESIGN CHOICE, safe (log 17):
with too few, the accesses of the missing operands are left out; with too many, the surplus operands are dropped. -/
def expandCommand (i : Instr) (operands : List Word) : List HostEvent :=
  ((operandRegs i).zip operands).map (fun p => HostEvent.W (argOffset p.1) p.2) ++ [HostEvent.W cmdOffset (encode i)]

/-- The host accesses a line stands for (R110, R111). -/
def AsmLine.expand : AsmLine → List HostEvent
  | .command i operands => expandCommand i operands
  | .vappendBit a b => expandCommand (.vappend a) [resultOfBit b, 1#32]
  | .vappendByte a byte => expandCommand (.vappend a) [byte.setWidth 32, 8#32]
  | .vempty a => expandCommand (.vinit a) [0#32]
  | .read offset => [HostEvent.R offset]

/-- A program is the finite list of its host accesses (R120). -/
def assemble (lines : List AsmLine) : List HostEvent := lines.flatMap AsmLine.expand

/-- A state with the accesses of `program` to come after those already waiting (R120, 20_memory.md R80). -/
def State.withProgram (s : State) (program : List HostEvent) : State := { s with events := s.events ++ program }

end Sys2Proof.Machine
end

