-- ==== Sys2Proof/Safety.lean ====
section
/-! DEFINITION. What counts as a well-formed state, what "succeeds" and "faults" mean for a command, which checks each
command makes, and which objects it may write: the terms in which claims are stated. -/

namespace Sys2Proof.Machine

/-! ### The invariant -/

/-- A vector slot as 10_state.md R36 and R38 describe it: the size fits, the storage is canonical, and it holds logical
bits only (R42; log 4). -/
abbrev VecSlot.Ok (p : Params) (d : VecSlot) : Prop :=
  d.size ≤ p.vcapBits ∧ d.words.wf ∧
  ∀ c ∈ d.words, ∀ k < 32, c.2.getLsbD k = true → 32 * c.1 + k < d.size

/-- The dimensions of a matrix slot (10_state.md R37): unconfigured, or configured and fitting its storage. -/
abbrev MatSlot.DimsOk (p : Params) (d : MatSlot) : Prop :=
  (d.width = 0 ∧ d.height = 0 ∧ d.stride = 0) ∨
  (1 ≤ d.width ∧ d.width < 2 ^ 31 ∧ 1 ≤ d.height ∧ d.height < 2 ^ 31 ∧
    d.stride = (d.width + 31) / 32 ∧ d.stride * d.height ≤ p.mcapWords)

/-- A matrix slot as 10_state.md R37 and R39 describe it: as for vectors. -/
abbrev MatSlot.Ok (p : Params) (d : MatSlot) : Prop :=
  d.DimsOk p ∧ d.words.wf ∧
  ∀ c ∈ d.words, c.1 < d.stride * d.height ∧
    ∀ k < 32, c.2.getLsbD k = true → 32 * (c.1 % d.stride) + k < d.width

/-- The byte buffer holds bytes of existing indices, in canonical form (10_state.md R40). -/
abbrev BufferOk (p : Params) (m : ByteMem) : Prop := ByteMem.wf m ∧ ∀ c ∈ m, c.1 < p.bufBytes

/-- The fault record agrees with itself: the reserved bits are 0 and no code above 5 appears (10_state.md R25, R26);
`FIRSTERR` is 0 exactly when `ERRLOG` is, and then `ERRCMD` and `ERRARG` are 0 (R30, R31); the bits of `LASTERR` and
`FIRSTERR` stand in `ERRLOG` (60_exceptions.md R276). -/
abbrev State.RecordOk (s : State) : Prop :=
  statusReserved s.status = 0#19 ∧ (lastErr s.status).toNat ≤ 5 ∧ (firstErr s.status).toNat ≤ 5 ∧
  (firstErr s.status = 0#4 ↔ errLog s.status = 0#5) ∧
  (firstErr s.status = 0#4 → s.errCmd = 0#32 ∧ s.errArg = Quad.fill 0#32) ∧
  (lastErr s.status ≠ 0#4 → (errLog s.status).getLsbD ((lastErr s.status).toNat - 1) = true) ∧
  (firstErr s.status ≠ 0#4 → (errLog s.status).getLsbD ((firstErr s.status).toNat - 1) = true)

/-- A well-formed state. -/
abbrev State.Inv (s : State) : Prop :=
  s.params.Legal ∧ (∀ v, (s.vec.get v).Ok s.params) ∧ (∀ m, (s.mat.get m).Ok s.params) ∧
  BufferOk s.params s.bb ∧ s.RecordOk

/-- No fault is recorded (10_state.md R25, 60_exceptions.md R277). -/
abbrev State.NoFaultRecorded (s : State) : Prop := errLog s.status = 0#5

/-! ### What a command leaves -/

/-- Outside storage, `t` is `s` after a command that succeeded with these results: all four `RES` written, `LASTERR` 0,
and everything else as it was (10_state.md R21, R22, R25, R30, R31). -/
structure Succeeds (s t : State) (r0 r1 r2 r3 : Word) : Prop where
  res : t.res = ⟨r0, r1, r2, r3⟩
  lastErr : lastErr t.status = 0#4
  firstErr : firstErr t.status = firstErr s.status
  errLog : errLog t.status = errLog s.status
  reserved : statusReserved t.status = statusReserved s.status
  params : t.params = s.params
  arg : t.arg = s.arg
  cmd : t.cmd = s.cmd
  errCmd : t.errCmd = s.errCmd
  errArg : t.errArg = s.errArg
  inReset : t.inReset = s.inReset
  events : t.events = s.events
  reads : t.reads = s.reads

/-- `t` is `s` after a command that faulted with cause `c`: the fault record of 60_exceptions.md R276 (first-fault capture
and nesting as in R285), and everything else as it was (R270). -/
structure Faults (s t : State) (c : Cause) : Prop where
  lastErr : lastErr t.status = c.code
  errLog : ∀ j < 5, (errLog t.status).getLsbD j = ((errLog s.status).getLsbD j || decide (j + 1 = c.code.toNat))
  first : firstErr s.status = 0#4 → firstErr t.status = c.code ∧ t.errCmd = s.cmd ∧ t.errArg = s.arg
  later : firstErr s.status ≠ 0#4 → firstErr t.status = firstErr s.status ∧ t.errCmd = s.errCmd ∧ t.errArg = s.errArg
  reserved : statusReserved t.status = statusReserved s.status
  params : t.params = s.params
  arg : t.arg = s.arg
  res : t.res = s.res
  cmd : t.cmd = s.cmd
  vec : t.vec = s.vec
  mat : t.mat = s.mat
  bb : t.bb = s.bb
  inReset : t.inReset = s.inReset
  events : t.events = s.events
  reads : t.reads = s.reads
  freeCount : t.freeCount = s.freeCount

/-- No object, no storage and no byte of the buffer changed. -/
structure SameStorage (s t : State) : Prop where
  vec : t.vec = s.vec
  mat : t.mat = s.mat
  bb : t.bb = s.bb
  freeCount : t.freeCount = s.freeCount

/-- No object but vector slot `v` changed, and no byte of the buffer (10_state.md R34). -/
structure OnlyVec (s t : State) (v : Fin 4) : Prop where
  vec : ∀ u, u ≠ v → t.vec.get u = s.vec.get u
  mat : t.mat = s.mat
  bb : t.bb = s.bb
  freeCount : t.freeCount = s.freeCount

/-- No object but matrix slot `m` changed, and no byte of the buffer (10_state.md R34). -/
structure OnlyMat (s t : State) (m : Fin 4) : Prop where
  vec : t.vec = s.vec
  mat : ∀ u, u ≠ m → t.mat.get u = s.mat.get u
  bb : t.bb = s.bb
  freeCount : t.freeCount = s.freeCount

/-- The dimensions of two matrix slots agree. -/
abbrev SameDims (d e : MatSlot) : Prop := d.width = e.width ∧ d.height = e.height ∧ d.stride = e.stride

/-- Every piece of the engine's state but `CMD` has its reset value (10_state.md R44); a byte of the buffer has no fixed
value. -/
structure AtReset (t : State) : Prop where
  arg : ∀ k, t.arg.get k = 0#32
  res : ∀ k, t.res.get k = 0#32
  status : t.status = 0#32
  errCmd : t.errCmd = 0#32
  errArg : ∀ k, t.errArg.get k = 0#32
  vec : ∀ v, (t.vec.get v).size = 0
  mat : ∀ m, (t.mat.get m).width = 0 ∧ (t.mat.get m).height = 0 ∧ (t.mat.get m).stride = 0
  bb : ∀ k, ByteMem.byteAt? t.bb k = none

/-! ### The checks of every command, as 60_exceptions.md R278 lists them -/

/-- Vector slot `a` of a command. -/
def State.vecAt (s : State) (a : Nat) : VecSlot := if h : a < 4 then s.vec.get ⟨a, h⟩ else VecSlot.empty

/-- Matrix slot `a` of a command. -/
def State.matAt (s : State) (a : Nat) : MatSlot := if h : a < 4 then s.mat.get ⟨a, h⟩ else MatSlot.unconfigured

/-- The cause of the first failing check of a list of (it fails, its cause). -/
def firstFailing : List (Bool × Cause) → Option Cause
  | [] => none
  | (true, c) :: _ => some c
  | (false, _) :: rest => firstFailing rest

/-- The check *configured* fails. -/
def unconfigured (d : MatSlot) : Bool × Cause := (d.width == 0, .invalidArgument)

/-- The check of a coordinate fails: `x >= W` or `y >= H`. -/
def outside (d : MatSlot) (x y : Nat) : Bool × Cause := (decide (x ≥ d.width) || decide (y ≥ d.height), .bounds)

/-- The checks of a command that follow decode, in order, each with the cause it raises (60_exceptions.md R278). -/
def checksOf (i : Instr) (s : State) : List (Bool × Cause) :=
  let a0 := s.argNat 0
  let a1 := s.argNat 1
  let a2 := s.argNat 2
  let a3 := s.argNat 3
  match i with
  | .nop => []
  | .errclr => []
  | .sreset => []
  | .vsize _ => []
  | .mdim _ => []
  | .brd => [(decide (a0 ≥ s.params.bufBytes), .bounds)]
  | .vinit _ => [(decide (a0 ≥ 2 ^ 31), .invalidArgument), (decide (a0 > s.params.vcapBits), .capacity)]
  | .vget a => [(decide (a0 ≥ (s.vecAt a).size), .bounds)]
  | .vset a => [(decide (a0 ≥ (s.vecAt a).size), .bounds)]
  | .vflip a => [(decide (a0 ≥ (s.vecAt a).size), .bounds)]
  | .vappend a =>
    [(decide (a1 > 32), .invalidArgument), (decide ((s.vecAt a).size + a1 > s.params.vcapBits), .capacity)]
  | .vrdbits a => [(decide (a1 > 32), .invalidArgument), (decide (a0 + a1 > (s.vecAt a).size), .bounds)]
  | .vxor a b => [((s.vecAt a).size != (s.vecAt b).size, .formatMismatch)]
  | .vtobytes a =>
    [(decide (a0 + 8 * a2 > (s.vecAt a).size), .bounds), (decide (a1 + a2 > s.params.bufBytes), .capacity)]
  | .minit _ =>
    [(a0 == 0 || a1 == 0 || decide (a0 ≥ 2 ^ 31) || decide (a1 ≥ 2 ^ 31), .invalidArgument),
      (decide ((a0 + 31) / 32 * a1 > s.params.mcapWords), .capacity)]
  | .mget a => [unconfigured (s.matAt a), outside (s.matAt a) a0 a1]
  | .mset a => [unconfigured (s.matAt a), outside (s.matAt a) a0 a1]
  | .mflip a => [unconfigured (s.matAt a), outside (s.matAt a) a0 a1]
  | .mfill a =>
    [unconfigured (s.matAt a),
      (a2 == 0 || a3 == 0 || decide (a2 ≥ 2 ^ 31) || decide (a3 ≥ 2 ^ 31), .invalidArgument),
      (decide (a0 + a2 > (s.matAt a).width) || decide (a1 + a3 > (s.matAt a).height), .invalidArgument)]
  | .mgetrow a _ =>
    [unconfigured (s.matAt a), (decide (a0 ≥ (s.matAt a).height), .bounds),
      (decide ((s.matAt a).width > s.params.vcapBits), .capacity)]
  | .msetrow a b =>
    [unconfigured (s.matAt a), (decide (a0 ≥ (s.matAt a).height), .bounds),
      ((s.vecAt b).size != (s.matAt a).width, .formatMismatch)]
  | .mrot180 a => [unconfigured (s.matAt a)]
  | .mtop a => [unconfigured (s.matAt a)]
  | .mbot a => [unconfigured (s.matAt a)]
  | .mrect a => [unconfigured (s.matAt a)]

/-- The fault a command raises in a state, if it raises one (60_exceptions.md R278). -/
def faultOf (i : Instr) (s : State) : Option Cause := firstFailing (checksOf i s)

/-! ### Which objects a command may write (20_memory.md R61; `SRESET` as 42_control_commands.md R202 says) -/

/-- The command may write the descriptor or the storage of vector slot `v`. -/
def writesVec (i : Instr) (v : Nat) : Bool :=
  match i with
  | .nop => false
  | .errclr => false
  | .sreset => true
  | .brd => false
  | .vinit a => a == v
  | .vsize _ => false
  | .vget _ => false
  | .vset a => a == v
  | .vflip a => a == v
  | .vappend a => a == v
  | .vrdbits _ => false
  | .vxor a _ => a == v
  | .vtobytes _ => false
  | .minit _ => false
  | .mdim _ => false
  | .mget _ => false
  | .mset _ => false
  | .mflip _ => false
  | .mfill _ => false
  | .mgetrow _ b => b == v
  | .msetrow _ _ => false
  | .mrot180 _ => false
  | .mtop _ => false
  | .mbot _ => false
  | .mrect _ => false

/-- The command may write the descriptor or the storage of matrix slot `m`. -/
def writesMat (i : Instr) (m : Nat) : Bool :=
  match i with
  | .nop => false
  | .errclr => false
  | .sreset => true
  | .brd => false
  | .vinit _ => false
  | .vsize _ => false
  | .vget _ => false
  | .vset _ => false
  | .vflip _ => false
  | .vappend _ => false
  | .vrdbits _ => false
  | .vxor _ _ => false
  | .vtobytes _ => false
  | .minit a => a == m
  | .mdim _ => false
  | .mget _ => false
  | .mset a => a == m
  | .mflip a => a == m
  | .mfill a => a == m
  | .mgetrow _ _ => false
  | .msetrow a _ => a == m
  | .mrot180 a => a == m
  | .mtop _ => false
  | .mbot _ => false
  | .mrect _ => false

/-- The command may write the byte buffer: `VTOBYTES`, and `SRESET`, which leaves every byte
unspecified (42_control_commands.md R202; the table of 20_memory.md R61 gives it no write of `BB`). -/
def writesBuffer (i : Instr) : Bool := i == .sreset || (List.range 4).any fun a => i == .vtobytes a

end Sys2Proof.Machine
end

