-- ==== Sys2Proof/Certificates/Slice0/Obligations.lean ====
section
/-! DEFINITION. The statements for the provers. Each docstring says which rule of spec/ it formalises. Storage is spoken
of through its logical bits only (10_state.md R42, R43). -/

open Sys2Proof Sys2Proof.Machine

/-! ### Encoding -/

/-- Decoding the encoding of a well-formed command gives it back (30_encoding.md R101, R104, R106, R110). -/
def Obligations.DecodeOfEncode : Prop :=
  ∀ i : Instr, i.WellFormed → decode (encode i) = .ok i

/-- A legal word is the encoding of the one well-formed command it decodes to: no bit of it is dropped (R101 to R106). -/
def Obligations.EncodeOfDecode : Prop :=
  ∀ (cw : Word) (i : Instr), decode cw = .ok i → i.WellFormed ∧ encode i = cw

/-- Exactly 124 command words are legal (30_encoding.md R106). -/
def Obligations.LegalWordsNumber124 : Prop :=
  ∃ legal : List Word, legal.Nodup ∧ legal.length = 124 ∧ ∀ cw, cw ∈ legal ↔ ∃ i, decode cw = .ok i

/-- R105: a word is illegal if its opcode is unlisted, its bits 31:12 are not zero, or a slot field its format does not use
is not zero; a host write of an illegal word stores it in `CMD`, raises `IllegalCommand` and does nothing else. -/
def Obligations.IllegalCommandWords : Prop :=
  (∀ cw : Word, (∃ e, decode cw = .error e) ↔
    cw.toNat % 256 ∉ [0x00, 0x01, 0x02, 0x03, 0x10, 0x11, 0x12, 0x13, 0x14, 0x15, 0x16, 0x17, 0x18,
      0x20, 0x21, 0x22, 0x23, 0x24, 0x25, 0x26, 0x27, 0x28, 0x29, 0x2A, 0x2B] ∨
    cw.toNat / 2 ^ 12 ≠ 0 ∨
    (cw.toNat % 256 ∈ [0x00, 0x01, 0x02, 0x03] ∧ cw.toNat / 2 ^ 8 % 4 ≠ 0) ∨
    (cw.toNat % 256 ∉ [0x17, 0x26, 0x27] ∧ cw.toNat / 2 ^ 10 % 4 ≠ 0)) ∧
  (∀ (s : State) (cw : Word), (∃ e, decode cw = .error e) →
    ∃ t, runCommandWord cw s = .next t ∧ Faults { s with cmd := cw } t .illegalCommand)

/-- Command words written out in the spec's examples and test vectors decode to what they stand for: `VAPPEND v1` (R110),
`VXOR v0, v1` (R137), `MGETROW m1, v3` (R166), `MSETROW m2, v3` (vector T35), `BRD` (R203), `MRECT m1` (vector T32); and the words
of vector T50 that are illegal do not decode. -/
def Obligations.SampleWordsDecode : Prop :=
  decode 0x00000115#32 = .ok (.vappend 1) ∧ decode 0x00000417#32 = .ok (.vxor 0 1) ∧
  decode 0x00000D26#32 = .ok (.mgetrow 1 3) ∧ decode 0x00000E27#32 = .ok (.msetrow 2 3) ∧
  decode 0x00000003#32 = .ok .brd ∧ decode 0x0000012B#32 = .ok (.mrect 1) ∧
  decode 0x00000019#32 = .error .unknownOpcode ∧ decode 0x80000010#32 = .error .reservedBits ∧
  decode 0x00000100#32 = .error .unusedSlot ∧ decode 0x00000410#32 = .error .unusedSlot

/-- A slot number no command word encodes is refused by name and nothing runs (model's choice, log 9). -/
def Obligations.SlotBeyondThreeRefused : Prop :=
  ∀ (i : Instr) (s : State), ¬ i.WellFormed → exec i s = .refused .noSuchSlot

/-! ### The step and the register block -/

/-- A step on a host write to `CMD` is that write, on the state with the access taken from the list of those waiting; if the
word decodes, it stores the word and runs the command the word decodes to (10_state.md R23, 20_memory.md R80, R81; that list is the model's, log 1). -/
def Obligations.StepRunsDecodedCommand : Prop :=
  ∀ (s : State) (cw : Word) (i : Instr) (rest : List HostEvent),
    s.inReset = false → s.events = .W 0x20 cw :: rest →
    step s = runCommandWord cw { s with events := rest } ∧
    (decode cw = .ok i → step s = exec i { s with events := rest, cmd := cw })

/-- What a host read of each location returns, without a side effect (10_state.md R32, R33); the value is
added to the model's list of values read (log 2). -/
def Obligations.RegisterReads : Prop :=
  ∀ (s : State) (offset : Nat) (rest : List HostEvent), s.Inv → s.inReset = false → AccessOk 32 offset →
    s.events = .R offset :: rest →
    ∃ v : Word, step s = .next { s with events := rest, reads := s.reads ++ [v] } ∧
      (offset = 0x00 → v = 0x00012044#32) ∧
      (offset = 0x04 → v.toNat = s.params.vcapBits) ∧
      (offset = 0x08 → v.toNat = s.params.mcapWords) ∧
      (offset = 0x0C → v.toNat = s.params.bufBytes) ∧
      (∀ k : Fin 4, offset = 0x10 + 4 * k.val → v = s.arg.get k) ∧
      (offset = 0x20 → v = s.cmd) ∧
      (offset = 0x24 → v = s.status) ∧
      (∀ k : Fin 4, offset = 0x28 + 4 * k.val → v = s.res.get k) ∧
      (offset = 0x38 → v = s.errCmd) ∧
      (offset = 0x3C → v = 0#32) ∧
      (∀ k : Fin 4, offset = 0x40 + 4 * k.val → v = s.errArg.get k) ∧
      (0x50 ≤ offset → v = 0#32)

/-- A host write of `ARGk` stores all 32 bits and runs nothing; a write of any other location but `CMD` is ignored
(10_state.md R21, R33). -/
def Obligations.RegisterWrites : Prop :=
  ∀ (s : State) (offset : Nat) (value : Word) (rest : List HostEvent), s.inReset = false → AccessOk 32 offset →
    s.events = .W offset value :: rest →
    (∀ k : Fin 4, offset = 0x10 + 4 * k.val →
      step s = .next { s with events := rest, arg := s.arg.set k value }) ∧
    (offset < 0x10 ∨ 0x20 < offset → step s = .next { s with events := rest })

/-- An access that is not an aligned 32-bit access of the block gets no step: it is refused (20_memory.md R71,
93_implementation_defined.md U5), also while reset is asserted (model's choice, log 10). -/
def Obligations.UndefinedAccessRefused : Prop :=
  ∀ (s : State) (width offset : Nat) (value : Word) (rest : List HostEvent),
    (width ≠ 32 ∨ offset % 4 ≠ 0 ∨ 0x7C < offset) →
    (s.events = .write width offset value :: rest → step s = .refused .undefinedAccess) ∧
    (s.events = .read width offset :: rest → step s = .refused .undefinedAccess)

/-- Accesses are ignored while reset is asserted, after its release every piece of state has its reset value, and with no
access to perform the engine waits (R310). That the assertion of reset already sets those values is the model's choice
(log 11). -/
def Obligations.ResetLine : Prop :=
  (∀ (s : State) (rest : List HostEvent), s.events = .reset true :: rest →
    ∃ t, step s = .next t ∧ AtReset t ∧ t.cmd = 0#32 ∧ t.inReset = true ∧ t.params = s.params ∧ t.events = rest) ∧
  (∀ (s : State) (offset : Nat) (value : Word) (rest : List HostEvent), s.inReset = true → AccessOk 32 offset →
    (s.events = .W offset value :: rest ∨ s.events = .R offset :: rest) →
    step s = .next { s with events := rest }) ∧
  (∀ (s : State) (rest : List HostEvent), s.inReset = true → s.events = .reset false :: rest →
    ∃ t, step s = .next t ∧ AtReset t ∧ t.cmd = 0#32 ∧ t.inReset = false ∧ t.params = s.params ∧ t.events = rest) ∧
  (∀ s : State, s.events = [] → step s = .next s)

/-- R44: after reset every piece of state has the value of the table, and the constant registers read their constants. -/
def Obligations.ResetValues : Prop :=
  AtReset State.reset ∧ State.reset.cmd = 0#32 ∧ State.reset.readReg .id = 0x00012044#32 ∧
  (State.reset.readReg .vcap).toNat = State.reset.params.vcapBits ∧
  (State.reset.readReg .mcap).toNat = State.reset.params.mcapWords ∧
  (State.reset.readReg .bcap).toNat = State.reset.params.bufBytes

/-- An assembler line with all its operands: its accesses write the operands to the operand registers of the command, in
order, and then run the command (30_encoding.md R103, R110). -/
def Obligations.ExpandedLineRunsCommand : Prop :=
  ∀ (s : State) (i : Instr) (operands : List Word) (rest : List HostEvent),
    i.WellFormed → operands.length = (operandRegs i).length → s.inReset = false →
    s.events = expandCommand i operands ++ rest →
    ∃ u : State, Sys2Proof.core.run operands.length s = .next u ∧
      (∀ (n : Nat) (k : Fin 4) (v : Word), (operandRegs i)[n]? = some k → operands[n]? = some v → u.arg.get k = v) ∧
      (∀ k : Fin 4, k ∉ operandRegs i → u.arg.get k = s.arg.get k) ∧
      u = { s with arg := u.arg, events := .W 0x20 (encode i) :: rest } ∧
      step u = exec i { u with events := rest, cmd := encode i }

/-! ### The whole machine -/

/-- The state after reset is well formed. -/
def Obligations.ResetIsWellFormed : Prop := State.reset.Inv

/-- Every step keeps the state well formed: descriptors and storage as 10_state.md R36, R37 say, storage canonical and
without padding bits (R42; log 4), the reserved `STATUS` bits 0 and the fault record consistent (R25, R26, R30, R31). -/
def Obligations.StepKeepsWellFormed : Prop :=
  ∀ s t : State, s.Inv → step s = .next t → t.Inv

/-- From a well-formed state, a step that meets no undefined access always has a next state: no command forms an address
that does not exist (20_memory.md R60) and no fault stops the engine (60_exceptions.md R277). -/
def Obligations.StepNeverStops : Prop :=
  ∀ s : State, s.Inv → (∀ e ∈ s.events.head?, e.WellFormed) → ∃ t, step s = .next t

/-- From a well-formed state, any finite list of defined host events is performed to its end, one step for each, and leaves a
well-formed state (20_memory.md R80, R81; 42_control_commands.md R204). -/
def Obligations.AllWaitingEventsComplete : Prop :=
  ∀ s : State, s.Inv → (∀ e ∈ s.events, e.WellFormed) →
    ∃ t : State, Sys2Proof.core.run s.events.length s = .next t ∧ t.events = [] ∧ t.Inv

/-- Every command in every well-formed state raises exactly the fault of its first failing check, in the order of R278, and
then changes nothing but the fault record (R270, R276); with no failing check it succeeds. -/
def Obligations.FaultIsFirstFailingCheck : Prop :=
  ∀ (i : Instr) (s : State), i.WellFormed → s.Inv →
    ∃ t, exec i s = .next t ∧
      (∀ c, faultOf i s = some c → Faults s t c) ∧
      (faultOf i s = none → lastErr t.status = 0#4)

/-- No command writes an operand register (10_state.md R21; `SRESET` excepted, 42_control_commands.md R202), `CMD`, a
constant, or what belongs to the host. -/
def Obligations.CommandsKeepHostState : Prop :=
  ∀ (i : Instr) (s t : State), exec i s = .next t →
    t.cmd = s.cmd ∧ t.params = s.params ∧ t.inReset = s.inReset ∧ t.events = s.events ∧ t.reads = s.reads ∧
    (i ≠ .sreset → t.arg = s.arg)

/-- A command changes no object but those 20_memory.md R61 says it writes, or, for `SRESET`,
42_control_commands.md R202, which makes every byte of the buffer unspecified: slots share no storage (10_state.md R34). -/
def Obligations.CommandsKeepOtherObjects : Prop :=
  ∀ (i : Instr) (s t : State), exec i s = .next t →
    (∀ v : Fin 4, writesVec i v = false → t.vec.get v = s.vec.get v) ∧
    (∀ m : Fin 4, writesMat i m = false → t.mat.get m = s.mat.get m) ∧
    (writesBuffer i = false → t.bb = s.bb)

/-- A command that succeeds does not depend on the operand registers its row of 30_encoding.md R103 does not list
(70_reset_and_hazards.md R321). -/
def Obligations.UnlistedOperandsDoNotMatter : Prop :=
  ∀ (i : Instr) (s t : State) (arg' : Quad Word), exec i s = .next t → lastErr t.status = 0#4 →
    (∀ k ∈ operandRegs i, arg'.get k = s.arg.get k) →
    ∃ t', exec i { s with arg := arg' } = .next t' ∧ t'.res = t.res ∧ t'.status = t.status ∧ t'.vec = t.vec ∧
      t'.mat = t.mat ∧ t'.bb = t.bb ∧ t'.errCmd = t.errCmd ∧ t'.errArg = t.errArg ∧ t'.freeCount = t.freeCount

/-- The capture registers describe the first fault since the last clear, and a bit of `ERRLOG` stays set: a step keeps them,
unless it clears the whole record (`ERRCLR`, `SRESET`, reset) (10_state.md R25, R30, R31; 60_exceptions.md R285). -/
def Obligations.FaultRecordIsSticky : Prop :=
  ∀ s t : State, s.Inv → firstErr s.status ≠ 0#4 → step s = .next t →
    (firstErr t.status = firstErr s.status ∧ t.errCmd = s.errCmd ∧ t.errArg = s.errArg ∧
      ∀ j < 5, (errLog s.status).getLsbD j = true → (errLog t.status).getLsbD j = true) ∨
    (t.status = 0#32 ∧ t.errCmd = 0#32 ∧ t.errArg = Quad.fill 0#32)

/-- The commands 20_memory.md R74 lists give the same state if repeated at once with the same operands. -/
def Obligations.RepeatedCommandsChangeNothing : Prop :=
  ∀ (i : Instr) (s t : State), s.Inv → exec i s = .next t →
    (i ∈ [Instr.nop, .errclr, .sreset] ∨
      ∃ a b : Nat, i ∈ [Instr.vinit a, .vsize a, .vget a, .vset a, .vrdbits a, .vtobytes a, .minit a, .mdim a, .mget a,
        .mset a, .mfill a, .mgetrow a b, .msetrow a b, .mtop a, .mbot a, .mrect a]) →
    exec i t = .next t

/-! ### Control commands -/

/-- R200. -/
def Obligations.NopRule : Prop :=
  ∀ s : State, decode 0x00000000#32 = .ok .nop ∧
    ∃ t, exec .nop s = .next t ∧ Succeeds s t 0#32 0#32 0#32 0#32 ∧ SameStorage s t

/-- R201, R284: the fault record is cleared, so that `STATUS` reads 0; no object, no storage, no `ARG` changes. -/
def Obligations.ErrclrRule : Prop :=
  ∀ s : State, s.Inv → decode 0x00000001#32 = .ok .errclr ∧
    ∃ t, exec .errclr s = .next t ∧ t.status = 0#32 ∧ t.errCmd = 0#32 ∧ t.errArg = Quad.fill 0#32 ∧
      t.res = Quad.fill 0#32 ∧ t.arg = s.arg ∧ t.cmd = s.cmd ∧ t.params = s.params ∧ t.inReset = s.inReset ∧
      t.events = s.events ∧ t.reads = s.reads ∧ SameStorage s t

/-- R202: every piece of state takes its reset value but `CMD`, which holds 0x00000002 after the host's write of it
(`ARG0..3` become 0 as R202 says, log 6; a byte of the buffer has no fixed value, log 5). -/
def Obligations.SresetRule : Prop :=
  decode 0x00000002#32 = .ok .sreset ∧
  (∀ s : State, ∃ t, exec .sreset s = .next t ∧ AtReset t ∧ t.cmd = s.cmd ∧ t.params = s.params ∧
    t.inReset = s.inReset ∧ t.events = s.events ∧ t.reads = s.reads) ∧
  (∀ s : State, ∃ t, runCommandWord 0x00000002#32 s = .next t ∧ AtReset t ∧ t.cmd = 0x00000002#32 ∧
    t.params = s.params ∧ t.inReset = s.inReset ∧ t.events = s.events ∧ t.reads = s.reads)

/-- R203: a byte `VTOBYTES` has written since reset is read; any other gives some value in 0..255, whatever it is
(a free value, log 5). -/
def Obligations.BrdRule : Prop :=
  ∀ s : State, decode 0x00000003#32 = .ok .brd ∧
    (s.params.bufBytes ≤ s.argNat 0 → ∃ t, exec .brd s = .next t ∧ Faults s t .bounds) ∧
    (s.argNat 0 < s.params.bufBytes → ∃ (t : State) (b : Byte), exec .brd s = .next t ∧
      Succeeds s t (b.setWidth 32) 0#32 0#32 0#32 ∧ t.vec = s.vec ∧ t.mat = s.mat ∧ t.bb = s.bb ∧
      (∀ b', ByteMem.byteAt? s.bb (s.argNat 0) = some b' → b = b'))

/-! ### Vector commands -/

/-- R130. -/
def Obligations.VinitRule : Prop :=
  ∀ (s : State) (v : Fin 4), s.Inv →
    decode (0x00000010#32 ||| (BitVec.ofNat 32 v <<< 8)) = .ok (.vinit v) ∧
    (2 ^ 31 ≤ s.argNat 0 → ∃ t, exec (.vinit v) s = .next t ∧ Faults s t .invalidArgument) ∧
    (s.argNat 0 < 2 ^ 31 → s.params.vcapBits < s.argNat 0 →
      ∃ t, exec (.vinit v) s = .next t ∧ Faults s t .capacity) ∧
    (s.argNat 0 ≤ s.params.vcapBits →
      ∃ t, exec (.vinit v) s = .next t ∧ Succeeds s t (s.arg.get 0) 0#32 0#32 0#32 ∧ OnlyVec s t v ∧
        (t.vec.get v).size = s.argNat 0 ∧ ∀ i < s.argNat 0, (t.vec.get v).vbit i = false)

/-- R131. -/
def Obligations.VsizeRule : Prop :=
  ∀ (s : State) (v : Fin 4), s.Inv →
    decode (0x00000011#32 ||| (BitVec.ofNat 32 v <<< 8)) = .ok (.vsize v) ∧
    ∃ (t : State) (r : Word), exec (.vsize v) s = .next t ∧ Succeeds s t r 0#32 0#32 0#32 ∧ SameStorage s t ∧
      r.toNat = (s.vec.get v).size

/-- R132. -/
def Obligations.VgetRule : Prop :=
  ∀ (s : State) (v : Fin 4), s.Inv →
    decode (0x00000012#32 ||| (BitVec.ofNat 32 v <<< 8)) = .ok (.vget v) ∧
    ((s.vec.get v).size ≤ s.argNat 0 → ∃ t, exec (.vget v) s = .next t ∧ Faults s t .bounds) ∧
    (s.argNat 0 < (s.vec.get v).size →
      ∃ t, exec (.vget v) s = .next t ∧ SameStorage s t ∧
        Succeeds s t (if (s.vec.get v).vbit (s.argNat 0) then 1#32 else 0#32) 0#32 0#32 0#32)

/-- R133: bit `i` becomes 1, every other logical bit of the slot stays. -/
def Obligations.VsetRule : Prop :=
  ∀ (s : State) (v : Fin 4), s.Inv →
    decode (0x00000013#32 ||| (BitVec.ofNat 32 v <<< 8)) = .ok (.vset v) ∧
    ((s.vec.get v).size ≤ s.argNat 0 → ∃ t, exec (.vset v) s = .next t ∧ Faults s t .bounds) ∧
    (s.argNat 0 < (s.vec.get v).size →
      ∃ t, exec (.vset v) s = .next t ∧ Succeeds s t 0#32 0#32 0#32 0#32 ∧ OnlyVec s t v ∧
        (t.vec.get v).size = (s.vec.get v).size ∧ (t.vec.get v).vbit (s.argNat 0) = true ∧
        ∀ i < (s.vec.get v).size, i ≠ s.argNat 0 → (t.vec.get v).vbit i = (s.vec.get v).vbit i)

/-- R134: bit `i` is inverted, every other logical bit of the slot stays. -/
def Obligations.VflipRule : Prop :=
  ∀ (s : State) (v : Fin 4), s.Inv →
    decode (0x00000014#32 ||| (BitVec.ofNat 32 v <<< 8)) = .ok (.vflip v) ∧
    ((s.vec.get v).size ≤ s.argNat 0 → ∃ t, exec (.vflip v) s = .next t ∧ Faults s t .bounds) ∧
    (s.argNat 0 < (s.vec.get v).size →
      ∃ t, exec (.vflip v) s = .next t ∧ Succeeds s t 0#32 0#32 0#32 0#32 ∧ OnlyVec s t v ∧
        (t.vec.get v).size = (s.vec.get v).size ∧
        (t.vec.get v).vbit (s.argNat 0) = !(s.vec.get v).vbit (s.argNat 0) ∧
        ∀ i < (s.vec.get v).size, i ≠ s.argNat 0 → (t.vec.get v).vbit i = (s.vec.get v).vbit i)

/-- R135: bit `n - 1 - k` of `value` becomes logical bit `size + k`; the earlier bits stay. -/
def Obligations.VappendRule : Prop :=
  ∀ (s : State) (v : Fin 4), s.Inv →
    decode (0x00000015#32 ||| (BitVec.ofNat 32 v <<< 8)) = .ok (.vappend v) ∧
    (32 < s.argNat 1 → ∃ t, exec (.vappend v) s = .next t ∧ Faults s t .invalidArgument) ∧
    (s.argNat 1 ≤ 32 → s.params.vcapBits < (s.vec.get v).size + s.argNat 1 →
      ∃ t, exec (.vappend v) s = .next t ∧ Faults s t .capacity) ∧
    (s.argNat 1 ≤ 32 → (s.vec.get v).size + s.argNat 1 ≤ s.params.vcapBits →
      ∃ (t : State) (r : Word), exec (.vappend v) s = .next t ∧ Succeeds s t r 0#32 0#32 0#32 ∧ OnlyVec s t v ∧
        r.toNat = (s.vec.get v).size + s.argNat 1 ∧
        (t.vec.get v).size = (s.vec.get v).size + s.argNat 1 ∧
        (∀ i < (s.vec.get v).size, (t.vec.get v).vbit i = (s.vec.get v).vbit i) ∧
        ∀ k < s.argNat 1, (t.vec.get v).vbit ((s.vec.get v).size + k) = (s.arg.get 0).getLsbD (s.argNat 1 - 1 - k))

/-- R136: the bit of lowest index is the most significant of the `n` bits of the result, which is below `2^n`. -/
def Obligations.VrdbitsRule : Prop :=
  ∀ (s : State) (v : Fin 4), s.Inv →
    decode (0x00000016#32 ||| (BitVec.ofNat 32 v <<< 8)) = .ok (.vrdbits v) ∧
    (32 < s.argNat 1 → ∃ t, exec (.vrdbits v) s = .next t ∧ Faults s t .invalidArgument) ∧
    (s.argNat 1 ≤ 32 → (s.vec.get v).size < s.argNat 0 + s.argNat 1 →
      ∃ t, exec (.vrdbits v) s = .next t ∧ Faults s t .bounds) ∧
    (s.argNat 1 ≤ 32 → s.argNat 0 + s.argNat 1 ≤ (s.vec.get v).size →
      ∃ (t : State) (r : Word), exec (.vrdbits v) s = .next t ∧ Succeeds s t r 0#32 0#32 0#32 ∧ SameStorage s t ∧
        r.toNat < 2 ^ s.argNat 1 ∧
        ∀ k < s.argNat 1, r.getLsbD (s.argNat 1 - 1 - k) = (s.vec.get v).vbit (s.argNat 0 + k))

/-- R137: every logical bit of the destination is XORed with the source's, which may be the same slot. -/
def Obligations.VxorRule : Prop :=
  ∀ (s : State) (d c : Fin 4), s.Inv →
    decode (0x00000017#32 ||| (BitVec.ofNat 32 d <<< 8) ||| (BitVec.ofNat 32 c <<< 10)) = .ok (.vxor d c) ∧
    ((s.vec.get d).size ≠ (s.vec.get c).size → ∃ t, exec (.vxor d c) s = .next t ∧ Faults s t .formatMismatch) ∧
    ((s.vec.get d).size = (s.vec.get c).size →
      ∃ t, exec (.vxor d c) s = .next t ∧ Succeeds s t 0#32 0#32 0#32 0#32 ∧ OnlyVec s t d ∧
        (t.vec.get d).size = (s.vec.get d).size ∧
        ∀ i < (s.vec.get d).size,
          (t.vec.get d).vbit i = ((s.vec.get d).vbit i != (s.vec.get c).vbit i))

/-- R138: bit `bitOffset + 8j + k` becomes bit `7 - k` of byte `bufOffset + j`; the other bytes of the buffer and every
object stay. -/
def Obligations.VtobytesRule : Prop :=
  ∀ (s : State) (v : Fin 4), s.Inv →
    decode (0x00000018#32 ||| (BitVec.ofNat 32 v <<< 8)) = .ok (.vtobytes v) ∧
    ((s.vec.get v).size < s.argNat 0 + 8 * s.argNat 2 →
      ∃ t, exec (.vtobytes v) s = .next t ∧ Faults s t .bounds) ∧
    (s.argNat 0 + 8 * s.argNat 2 ≤ (s.vec.get v).size → s.params.bufBytes < s.argNat 1 + s.argNat 2 →
      ∃ t, exec (.vtobytes v) s = .next t ∧ Faults s t .capacity) ∧
    (s.argNat 0 + 8 * s.argNat 2 ≤ (s.vec.get v).size → s.argNat 1 + s.argNat 2 ≤ s.params.bufBytes →
      ∃ t, exec (.vtobytes v) s = .next t ∧ Succeeds s t (s.arg.get 2) 0#32 0#32 0#32 ∧
        t.vec = s.vec ∧ t.mat = s.mat ∧ t.freeCount = s.freeCount ∧
        (∀ j < s.argNat 2, ∃ b : Byte, ByteMem.byteAt? t.bb (s.argNat 1 + j) = some b ∧
          ∀ k < 8, b.getLsbD (7 - k) = (s.vec.get v).vbit (s.argNat 0 + 8 * j + k)) ∧
        ∀ q, (q < s.argNat 1 ∨ s.argNat 1 + s.argNat 2 ≤ q) → ByteMem.byteAt? t.bb q = ByteMem.byteAt? s.bb q)

/-! ### Matrix commands -/

/-- R160. -/
def Obligations.MinitRule : Prop :=
  ∀ (s : State) (m : Fin 4), s.Inv →
    decode (0x00000020#32 ||| (BitVec.ofNat 32 m <<< 8)) = .ok (.minit m) ∧
    (s.argNat 0 = 0 ∨ s.argNat 1 = 0 ∨ 2 ^ 31 ≤ s.argNat 0 ∨ 2 ^ 31 ≤ s.argNat 1 →
      ∃ t, exec (.minit m) s = .next t ∧ Faults s t .invalidArgument) ∧
    (1 ≤ s.argNat 0 → 1 ≤ s.argNat 1 → s.argNat 0 < 2 ^ 31 → s.argNat 1 < 2 ^ 31 →
      s.params.mcapWords < (s.argNat 0 + 31) / 32 * s.argNat 1 →
      ∃ t, exec (.minit m) s = .next t ∧ Faults s t .capacity) ∧
    (1 ≤ s.argNat 0 → 1 ≤ s.argNat 1 → s.argNat 0 < 2 ^ 31 → s.argNat 1 < 2 ^ 31 →
      (s.argNat 0 + 31) / 32 * s.argNat 1 ≤ s.params.mcapWords →
      ∃ (t : State) (r : Word), exec (.minit m) s = .next t ∧
        Succeeds s t (s.arg.get 0) (s.arg.get 1) r 0#32 ∧ OnlyMat s t m ∧
        r.toNat = (s.argNat 0 + 31) / 32 ∧
        (t.mat.get m).width = s.argNat 0 ∧ (t.mat.get m).height = s.argNat 1 ∧
        (t.mat.get m).stride = (s.argNat 0 + 31) / 32 ∧
        ∀ x < s.argNat 0, ∀ y < s.argNat 1, (t.mat.get m).mbit x y = false)

/-- R161. -/
def Obligations.MdimRule : Prop :=
  ∀ (s : State) (m : Fin 4), s.Inv →
    decode (0x00000021#32 ||| (BitVec.ofNat 32 m <<< 8)) = .ok (.mdim m) ∧
    ∃ (t : State) (w h r : Word), exec (.mdim m) s = .next t ∧ Succeeds s t w h r 0#32 ∧ SameStorage s t ∧
      w.toNat = (s.mat.get m).width ∧ h.toNat = (s.mat.get m).height ∧ r.toNat = (s.mat.get m).stride

/-- R162. -/
def Obligations.MgetRule : Prop :=
  ∀ (s : State) (m : Fin 4), s.Inv →
    decode (0x00000022#32 ||| (BitVec.ofNat 32 m <<< 8)) = .ok (.mget m) ∧
    ((s.mat.get m).width = 0 → ∃ t, exec (.mget m) s = .next t ∧ Faults s t .invalidArgument) ∧
    ((s.mat.get m).width ≠ 0 → (s.mat.get m).width ≤ s.argNat 0 ∨ (s.mat.get m).height ≤ s.argNat 1 →
      ∃ t, exec (.mget m) s = .next t ∧ Faults s t .bounds) ∧
    (s.argNat 0 < (s.mat.get m).width → s.argNat 1 < (s.mat.get m).height →
      ∃ t, exec (.mget m) s = .next t ∧ SameStorage s t ∧
        Succeeds s t (if (s.mat.get m).mbit (s.argNat 0) (s.argNat 1) then 1#32 else 0#32) 0#32 0#32 0#32)

/-- R163: bit `(x, y)` becomes 1, every other logical bit of the slot stays. -/
def Obligations.MsetRule : Prop :=
  ∀ (s : State) (m : Fin 4), s.Inv →
    decode (0x00000023#32 ||| (BitVec.ofNat 32 m <<< 8)) = .ok (.mset m) ∧
    ((s.mat.get m).width = 0 → ∃ t, exec (.mset m) s = .next t ∧ Faults s t .invalidArgument) ∧
    ((s.mat.get m).width ≠ 0 → (s.mat.get m).width ≤ s.argNat 0 ∨ (s.mat.get m).height ≤ s.argNat 1 →
      ∃ t, exec (.mset m) s = .next t ∧ Faults s t .bounds) ∧
    (s.argNat 0 < (s.mat.get m).width → s.argNat 1 < (s.mat.get m).height →
      ∃ t, exec (.mset m) s = .next t ∧ Succeeds s t 0#32 0#32 0#32 0#32 ∧ OnlyMat s t m ∧
        SameDims (t.mat.get m) (s.mat.get m) ∧ (t.mat.get m).mbit (s.argNat 0) (s.argNat 1) = true ∧
        ∀ x < (s.mat.get m).width, ∀ y < (s.mat.get m).height, ¬(x = s.argNat 0 ∧ y = s.argNat 1) →
          (t.mat.get m).mbit x y = (s.mat.get m).mbit x y)

/-- R164: bit `(x, y)` is inverted, every other logical bit of the slot stays. -/
def Obligations.MflipRule : Prop :=
  ∀ (s : State) (m : Fin 4), s.Inv →
    decode (0x00000024#32 ||| (BitVec.ofNat 32 m <<< 8)) = .ok (.mflip m) ∧
    ((s.mat.get m).width = 0 → ∃ t, exec (.mflip m) s = .next t ∧ Faults s t .invalidArgument) ∧
    ((s.mat.get m).width ≠ 0 → (s.mat.get m).width ≤ s.argNat 0 ∨ (s.mat.get m).height ≤ s.argNat 1 →
      ∃ t, exec (.mflip m) s = .next t ∧ Faults s t .bounds) ∧
    (s.argNat 0 < (s.mat.get m).width → s.argNat 1 < (s.mat.get m).height →
      ∃ t, exec (.mflip m) s = .next t ∧ Succeeds s t 0#32 0#32 0#32 0#32 ∧ OnlyMat s t m ∧
        SameDims (t.mat.get m) (s.mat.get m) ∧
        (t.mat.get m).mbit (s.argNat 0) (s.argNat 1) = !(s.mat.get m).mbit (s.argNat 0) (s.argNat 1) ∧
        ∀ x < (s.mat.get m).width, ∀ y < (s.mat.get m).height, ¬(x = s.argNat 0 ∧ y = s.argNat 1) →
          (t.mat.get m).mbit x y = (s.mat.get m).mbit x y)

/-- R165: the region's bits become 1, every other logical bit of the slot stays; never `Bounds`. -/
def Obligations.MfillRule : Prop :=
  ∀ (s : State) (m : Fin 4), s.Inv →
    decode (0x00000025#32 ||| (BitVec.ofNat 32 m <<< 8)) = .ok (.mfill m) ∧
    ((s.mat.get m).width = 0 ∨ s.argNat 2 = 0 ∨ s.argNat 3 = 0 ∨ 2 ^ 31 ≤ s.argNat 2 ∨ 2 ^ 31 ≤ s.argNat 3 ∨
        (s.mat.get m).width < s.argNat 0 + s.argNat 2 ∨ (s.mat.get m).height < s.argNat 1 + s.argNat 3 →
      ∃ t, exec (.mfill m) s = .next t ∧ Faults s t .invalidArgument) ∧
    (1 ≤ s.argNat 2 → 1 ≤ s.argNat 3 → s.argNat 0 + s.argNat 2 ≤ (s.mat.get m).width →
      s.argNat 1 + s.argNat 3 ≤ (s.mat.get m).height →
      ∃ t, exec (.mfill m) s = .next t ∧ Succeeds s t 0#32 0#32 0#32 0#32 ∧ OnlyMat s t m ∧
        SameDims (t.mat.get m) (s.mat.get m) ∧
        ∀ x < (s.mat.get m).width, ∀ y < (s.mat.get m).height,
          (t.mat.get m).mbit x y =
            if s.argNat 0 ≤ x ∧ x < s.argNat 0 + s.argNat 2 ∧ s.argNat 1 ≤ y ∧ y < s.argNat 1 + s.argNat 3 then true
            else (s.mat.get m).mbit x y)

/-- R166: the vector becomes exactly the row; the matrix stays. -/
def Obligations.MgetrowRule : Prop :=
  ∀ (s : State) (m v : Fin 4), s.Inv →
    decode (0x00000026#32 ||| (BitVec.ofNat 32 m <<< 8) ||| (BitVec.ofNat 32 v <<< 10)) = .ok (.mgetrow m v) ∧
    ((s.mat.get m).width = 0 → ∃ t, exec (.mgetrow m v) s = .next t ∧ Faults s t .invalidArgument) ∧
    ((s.mat.get m).width ≠ 0 → (s.mat.get m).height ≤ s.argNat 0 →
      ∃ t, exec (.mgetrow m v) s = .next t ∧ Faults s t .bounds) ∧
    (s.argNat 0 < (s.mat.get m).height → s.params.vcapBits < (s.mat.get m).width →
      ∃ t, exec (.mgetrow m v) s = .next t ∧ Faults s t .capacity) ∧
    (s.argNat 0 < (s.mat.get m).height → (s.mat.get m).width ≤ s.params.vcapBits →
      ∃ (t : State) (r : Word), exec (.mgetrow m v) s = .next t ∧ Succeeds s t r 0#32 0#32 0#32 ∧ OnlyVec s t v ∧
        r.toNat = (s.mat.get m).width ∧ (t.vec.get v).size = (s.mat.get m).width ∧
        ∀ x < (s.mat.get m).width, (t.vec.get v).vbit x = (s.mat.get m).mbit x (s.argNat 0))

/-- R167: row `y` becomes the vector; the other rows and the vector stay. -/
def Obligations.MsetrowRule : Prop :=
  ∀ (s : State) (m v : Fin 4), s.Inv →
    decode (0x00000027#32 ||| (BitVec.ofNat 32 m <<< 8) ||| (BitVec.ofNat 32 v <<< 10)) = .ok (.msetrow m v) ∧
    ((s.mat.get m).width = 0 → ∃ t, exec (.msetrow m v) s = .next t ∧ Faults s t .invalidArgument) ∧
    ((s.mat.get m).width ≠ 0 → (s.mat.get m).height ≤ s.argNat 0 →
      ∃ t, exec (.msetrow m v) s = .next t ∧ Faults s t .bounds) ∧
    (s.argNat 0 < (s.mat.get m).height → (s.vec.get v).size ≠ (s.mat.get m).width →
      ∃ t, exec (.msetrow m v) s = .next t ∧ Faults s t .formatMismatch) ∧
    (s.argNat 0 < (s.mat.get m).height → (s.vec.get v).size = (s.mat.get m).width →
      ∃ t, exec (.msetrow m v) s = .next t ∧ Succeeds s t 0#32 0#32 0#32 0#32 ∧ OnlyMat s t m ∧
        SameDims (t.mat.get m) (s.mat.get m) ∧
        ∀ x < (s.mat.get m).width, ∀ y < (s.mat.get m).height,
          (t.mat.get m).mbit x y = if y = s.argNat 0 then (s.vec.get v).vbit x else (s.mat.get m).mbit x y)

/-- R168: `(x, y) <- old(W - 1 - x, H - 1 - y)`; the dimensions stay. -/
def Obligations.Mrot180Rule : Prop :=
  ∀ (s : State) (m : Fin 4), s.Inv →
    decode (0x00000028#32 ||| (BitVec.ofNat 32 m <<< 8)) = .ok (.mrot180 m) ∧
    ((s.mat.get m).width = 0 → ∃ t, exec (.mrot180 m) s = .next t ∧ Faults s t .invalidArgument) ∧
    ((s.mat.get m).width ≠ 0 →
      ∃ t, exec (.mrot180 m) s = .next t ∧ Succeeds s t 0#32 0#32 0#32 0#32 ∧ OnlyMat s t m ∧
        SameDims (t.mat.get m) (s.mat.get m) ∧
        ∀ x < (s.mat.get m).width, ∀ y < (s.mat.get m).height,
          (t.mat.get m).mbit x y =
            (s.mat.get m).mbit ((s.mat.get m).width - 1 - x) ((s.mat.get m).height - 1 - y))

/-- R169: found, and the least `y` of a set bit with the least `x` set in that row. -/
def Obligations.MtopRule : Prop :=
  ∀ (s : State) (m : Fin 4), s.Inv →
    decode (0x00000029#32 ||| (BitVec.ofNat 32 m <<< 8)) = .ok (.mtop m) ∧
    ((s.mat.get m).width = 0 → ∃ t, exec (.mtop m) s = .next t ∧ Faults s t .invalidArgument) ∧
    ((s.mat.get m).width ≠ 0 →
      (∀ x < (s.mat.get m).width, ∀ y < (s.mat.get m).height, (s.mat.get m).mbit x y = false) →
      ∃ t, exec (.mtop m) s = .next t ∧ Succeeds s t 0#32 0#32 0#32 0#32 ∧ SameStorage s t) ∧
    (∀ x0 < (s.mat.get m).width, ∀ y0 < (s.mat.get m).height, (s.mat.get m).mbit x0 y0 = true →
      (∀ x < (s.mat.get m).width, ∀ y < y0, (s.mat.get m).mbit x y = false) →
      (∀ x < x0, (s.mat.get m).mbit x y0 = false) →
      ∃ (t : State) (rx ry : Word), exec (.mtop m) s = .next t ∧ Succeeds s t 1#32 rx ry 0#32 ∧ SameStorage s t ∧
        rx.toNat = x0 ∧ ry.toNat = y0)

/-- R170: found, and the greatest `y` of a set bit with the greatest `x` set in that row. -/
def Obligations.MbotRule : Prop :=
  ∀ (s : State) (m : Fin 4), s.Inv →
    decode (0x0000002A#32 ||| (BitVec.ofNat 32 m <<< 8)) = .ok (.mbot m) ∧
    ((s.mat.get m).width = 0 → ∃ t, exec (.mbot m) s = .next t ∧ Faults s t .invalidArgument) ∧
    ((s.mat.get m).width ≠ 0 →
      (∀ x < (s.mat.get m).width, ∀ y < (s.mat.get m).height, (s.mat.get m).mbit x y = false) →
      ∃ t, exec (.mbot m) s = .next t ∧ Succeeds s t 0#32 0#32 0#32 0#32 ∧ SameStorage s t) ∧
    (∀ x1 < (s.mat.get m).width, ∀ y1 < (s.mat.get m).height, (s.mat.get m).mbit x1 y1 = true →
      (∀ x < (s.mat.get m).width, ∀ y < (s.mat.get m).height, y1 < y → (s.mat.get m).mbit x y = false) →
      (∀ x < (s.mat.get m).width, x1 < x → (s.mat.get m).mbit x y1 = false) →
      ∃ (t : State) (rx ry : Word), exec (.mbot m) s = .next t ∧ Succeeds s t 1#32 rx ry 0#32 ∧ SameStorage s t ∧
        rx.toNat = x1 ∧ ry.toNat = y1)

/-- R171: the smallest rectangle that holds every set bit, told by its least and greatest columns and rows, each of which
has a set bit. -/
def Obligations.MrectRule : Prop :=
  ∀ (s : State) (m : Fin 4), s.Inv →
    decode (0x0000002B#32 ||| (BitVec.ofNat 32 m <<< 8)) = .ok (.mrect m) ∧
    ((s.mat.get m).width = 0 → ∃ t, exec (.mrect m) s = .next t ∧ Faults s t .invalidArgument) ∧
    ((s.mat.get m).width ≠ 0 →
      (∀ x < (s.mat.get m).width, ∀ y < (s.mat.get m).height, (s.mat.get m).mbit x y = false) →
      ∃ t, exec (.mrect m) s = .next t ∧ Succeeds s t 0#32 0#32 0#32 0#32 ∧ SameStorage s t) ∧
    (∀ l r t' b : Nat,
      (∀ x < (s.mat.get m).width, ∀ y < (s.mat.get m).height, (s.mat.get m).mbit x y = true →
        l ≤ x ∧ x ≤ r ∧ t' ≤ y ∧ y ≤ b) →
      (∃ y < (s.mat.get m).height, l < (s.mat.get m).width ∧ (s.mat.get m).mbit l y = true) →
      (∃ y < (s.mat.get m).height, r < (s.mat.get m).width ∧ (s.mat.get m).mbit r y = true) →
      (∃ x < (s.mat.get m).width, t' < (s.mat.get m).height ∧ (s.mat.get m).mbit x t' = true) →
      (∃ x < (s.mat.get m).width, b < (s.mat.get m).height ∧ (s.mat.get m).mbit x b = true) →
      ∃ (t : State) (r0 r1 r2 r3 : Word), exec (.mrect m) s = .next t ∧ Succeeds s t r0 r1 r2 r3 ∧ SameStorage s t ∧
        r0.toNat = l ∧ r1.toNat = t' ∧ r2.toNat = r - l + 1 ∧ r3.toNat = b - t' + 1)

/-! ### Properties of commands together -/

/-- The document's first property (95_test_vectors.md S1): a field appended is read back from the same offset. -/
def Obligations.AppendThenReadBack : Prop :=
  ∀ (s : State) (v : Fin 4), s.Inv → s.argNat 1 ≤ 32 → (s.vec.get v).size + s.argNat 1 ≤ s.params.vcapBits →
    ∃ t u : State, exec (.vappend v) s = .next t ∧
      exec (.vrdbits v) { t with arg := t.arg.set 0 (BitVec.ofNat 32 (s.vec.get v).size) } = .next u ∧
      lastErr u.status = 0#4 ∧ (u.res.get 0).toNat = s.argNat 0 % 2 ^ s.argNat 1

/-- The document's second property (S2, R168): rotating twice restores the slot, dimensions and every bit. -/
def Obligations.RotateTwiceRestores : Prop :=
  ∀ (s : State) (m : Fin 4), s.Inv → (s.mat.get m).width ≠ 0 →
    ∃ t u : State, exec (.mrot180 m) s = .next t ∧ exec (.mrot180 m) t = .next u ∧ u.mat = s.mat

/-- XOR with the same other source twice restores the destination, and with itself clears it (R137). -/
def Obligations.XorTwiceRestores : Prop :=
  ∀ (s : State) (d c : Fin 4), s.Inv → (s.vec.get d).size = (s.vec.get c).size →
    ∃ t u : State, exec (.vxor d c) s = .next t ∧ exec (.vxor d c) t = .next u ∧
      (d ≠ c → u.vec = s.vec) ∧
      (d = c → ∀ i < (s.vec.get d).size, (t.vec.get d).vbit i = false)

/-- Two flips of the same bit restore the object (R134, R164). -/
def Obligations.FlipTwiceRestores : Prop :=
  (∀ (s : State) (v : Fin 4), s.Inv → s.argNat 0 < (s.vec.get v).size →
    ∃ t u : State, exec (.vflip v) s = .next t ∧ exec (.vflip v) t = .next u ∧ u.vec = s.vec) ∧
  (∀ (s : State) (m : Fin 4), s.Inv → s.argNat 0 < (s.mat.get m).width → s.argNat 1 < (s.mat.get m).height →
    ∃ t u : State, exec (.mflip m) s = .next t ∧ exec (.mflip m) t = .next u ∧ u.mat = s.mat)

/-- `MBOT` of a matrix is `MTOP` of its rotation mapped back (41_matrix_commands.md R170). -/
def Obligations.BottomIsTopOfRotation : Prop :=
  ∀ (s : State) (m : Fin 4), s.Inv → (s.mat.get m).width ≠ 0 →
    ∃ b t u : State, exec (.mbot m) s = .next b ∧ exec (.mrot180 m) s = .next t ∧ exec (.mtop m) t = .next u ∧
      b.res.get 0 = u.res.get 0 ∧
      (b.res.get 0 = 1#32 →
        (b.res.get 1).toNat = (s.mat.get m).width - 1 - (u.res.get 1).toNat ∧
        (b.res.get 2).toNat = (s.mat.get m).height - 1 - (u.res.get 2).toNat)

/-- A byte appended with `n = 8` is serialised and read as the same byte (20_memory.md R69, 95_test_vectors.md T20). -/
def Obligations.AppendedByteIsReadFromBuffer : Prop :=
  ∀ (s : State) (v : Fin 4) (byte : Byte) (k : Nat), s.Inv → (s.vec.get v).size + 8 ≤ s.params.vcapBits →
    k < s.params.bufBytes →
    ∃ t u w : State,
      exec (.vappend v) { s with arg := ⟨byte.setWidth 32, 8#32, s.arg.q2, s.arg.q3⟩ } = .next t ∧
      exec (.vtobytes v)
        { t with arg := ⟨BitVec.ofNat 32 (s.vec.get v).size, BitVec.ofNat 32 k, 1#32, s.arg.q3⟩ } = .next u ∧
      exec .brd { u with arg := u.arg.set 0 (BitVec.ofNat 32 k) } = .next w ∧
      lastErr w.status = 0#4 ∧ w.res.get 0 = byte.setWidth 32

/-- A row copied out with `MGETROW` and into a row of a matrix of the same width with `MSETROW` arrives unchanged, and the
other rows stay (41_matrix_commands.md R166, R167; 95_test_vectors.md P4). -/
def Obligations.RowCopyArrives : Prop :=
  ∀ (s : State) (m n v : Fin 4) (y : Nat), s.Inv → s.argNat 0 < (s.mat.get m).height → y < (s.mat.get n).height →
    (s.mat.get n).width = (s.mat.get m).width → (s.mat.get m).width ≤ s.params.vcapBits →
    ∃ t u : State, exec (.mgetrow m v) s = .next t ∧
      exec (.msetrow n v) { t with arg := t.arg.set 0 (BitVec.ofNat 32 y) } = .next u ∧
      lastErr u.status = 0#4 ∧
      ∀ x < (s.mat.get n).width, ∀ y' < (s.mat.get n).height,
        (u.mat.get n).mbit x y' =
          if y' = y then (s.mat.get m).mbit x (s.argNat 0) else (s.mat.get n).mbit x y'
end

