-- ==== Sys2Proof/Laws/Flags.lean ====
section
/-! SUPPORT. Each `STATUS` field after each update of `STATUS` (10_state.md R25, 60_exceptions.md R276). -/

namespace Sys2Proof.Machine

/-- Two words are equal when their bits are. -/
theorem eq_of_bits {n : Nat} {x y : BitVec n} (h : ∀ i : Fin n, x.getLsbD i = y.getLsbD i) : x = y :=
  BitVec.eq_of_getLsbD_eq fun i hi => h ⟨i, hi⟩

/-! ### A field read after a field write -/

@[simp] theorem lastErr_setLastErr (st : Word) (c : BitVec 4) : lastErr (setLastErr st c) = c := by
  refine eq_of_bits fun i => ?_
  fin_cases i <;> simp [lastErr, setLastErr]

@[simp] theorem firstErr_setLastErr (st : Word) (c : BitVec 4) : firstErr (setLastErr st c) = firstErr st := by
  refine eq_of_bits fun i => ?_
  fin_cases i <;> simp [firstErr, setLastErr]

@[simp] theorem errLog_setLastErr (st : Word) (c : BitVec 4) : errLog (setLastErr st c) = errLog st := by
  refine eq_of_bits fun i => ?_
  fin_cases i <;> simp [errLog, setLastErr]

@[simp] theorem statusReserved_setLastErr (st : Word) (c : BitVec 4) : statusReserved (setLastErr st c) = statusReserved st := by
  refine eq_of_bits fun i => ?_
  fin_cases i <;> simp [statusReserved, setLastErr]

@[simp] theorem lastErr_setFirstErr (st : Word) (c : BitVec 4) : lastErr (setFirstErr st c) = lastErr st := by
  refine eq_of_bits fun i => ?_
  fin_cases i <;> simp [lastErr, setFirstErr]

@[simp] theorem firstErr_setFirstErr (st : Word) (c : BitVec 4) : firstErr (setFirstErr st c) = c := by
  refine eq_of_bits fun i => ?_
  fin_cases i <;> simp [firstErr, setFirstErr]

@[simp] theorem errLog_setFirstErr (st : Word) (c : BitVec 4) : errLog (setFirstErr st c) = errLog st := by
  refine eq_of_bits fun i => ?_
  fin_cases i <;> simp [errLog, setFirstErr]

@[simp] theorem statusReserved_setFirstErr (st : Word) (c : BitVec 4) : statusReserved (setFirstErr st c) = statusReserved st := by
  refine eq_of_bits fun i => ?_
  fin_cases i <;> simp [statusReserved, setFirstErr]

@[simp] theorem lastErr_setErrLog (st : Word) (e : BitVec 5) : lastErr (setErrLog st e) = lastErr st := by
  refine eq_of_bits fun i => ?_
  fin_cases i <;> simp [lastErr, setErrLog]

@[simp] theorem firstErr_setErrLog (st : Word) (e : BitVec 5) : firstErr (setErrLog st e) = firstErr st := by
  refine eq_of_bits fun i => ?_
  fin_cases i <;> simp [firstErr, setErrLog]

@[simp] theorem errLog_setErrLog (st : Word) (e : BitVec 5) : errLog (setErrLog st e) = e := by
  refine eq_of_bits fun i => ?_
  fin_cases i <;> simp [errLog, setErrLog]

@[simp] theorem statusReserved_setErrLog (st : Word) (e : BitVec 5) : statusReserved (setErrLog st e) = statusReserved st := by
  refine eq_of_bits fun i => ?_
  fin_cases i <;> simp [statusReserved, setErrLog]

/-! ### After success -/

@[simp] theorem lastErr_statusOnSuccess (st : Word) : lastErr (statusOnSuccess st) = 0#4 := by simp [statusOnSuccess]
@[simp] theorem firstErr_statusOnSuccess (st : Word) : firstErr (statusOnSuccess st) = firstErr st := by
  simp [statusOnSuccess]
@[simp] theorem errLog_statusOnSuccess (st : Word) : errLog (statusOnSuccess st) = errLog st := by
  simp [statusOnSuccess]
@[simp] theorem statusReserved_statusOnSuccess (st : Word) :
    statusReserved (statusOnSuccess st) = statusReserved st := by simp [statusOnSuccess]

/-! ### After a fault -/

@[simp] theorem lastErr_statusOnFault (st : Word) (c : Cause) : lastErr (statusOnFault st c) = c.code := by
  simp only [statusOnFault]; split <;> simp
@[simp] theorem firstErr_statusOnFault (st : Word) (c : Cause) :
    firstErr (statusOnFault st c) = if firstErr st = 0#4 then c.code else firstErr st := by
  simp only [statusOnFault]; split <;> simp
@[simp] theorem errLog_statusOnFault (st : Word) (c : Cause) : errLog (statusOnFault st c) = errLogWith st c := by
  simp only [statusOnFault]; split <;> simp
@[simp] theorem statusReserved_statusOnFault (st : Word) (c : Cause) :
    statusReserved (statusOnFault st c) = statusReserved st := by
  simp only [statusOnFault]; split <;> simp

/-! ### After `ERRCLR` -/

@[simp] theorem lastErr_statusOnErrClr (st : Word) : lastErr (statusOnErrClr st) = lastErr st := by
  simp [statusOnErrClr]
@[simp] theorem firstErr_statusOnErrClr (st : Word) : firstErr (statusOnErrClr st) = 0#4 := by simp [statusOnErrClr]
@[simp] theorem errLog_statusOnErrClr (st : Word) : errLog (statusOnErrClr st) = 0#5 := by simp [statusOnErrClr]
@[simp] theorem statusReserved_statusOnErrClr (st : Word) :
    statusReserved (statusOnErrClr st) = statusReserved st := by simp [statusOnErrClr]

/-! ### Cause codes -/

/-- No cause has the code of success. -/
@[simp] theorem Cause.code_ne_zero (c : Cause) : c.code ≠ 0#4 := by cases c <;> decide

/-- Codes 6 to 15 are never produced (10_state.md R26). -/
theorem Cause.code_le (c : Cause) : c.code.toNat ≤ 5 := by cases c <;> decide

/-- The sticky bit of the cause is set, the others stay (10_state.md R26). -/
theorem getLsbD_errLogWith (st : Word) (c : Cause) (j : Nat) (hj : j < 5) :
    (errLogWith st c).getLsbD j = ((errLog st).getLsbD j || decide (j + 1 = c.code.toNat)) := by
  interval_cases j <;> cases c <;> simp [errLogWith, Cause.code]

/-- `STATUS` is its four fields. -/
theorem status_eq_of_fields {x y : Word} (h1 : lastErr x = lastErr y) (h2 : firstErr x = firstErr y)
    (h3 : errLog x = errLog y) (h4 : statusReserved x = statusReserved y) : x = y := by
  refine BitVec.eq_of_getLsbD_eq fun i hi => ?_
  have a1 := congrArg (fun b => b.getLsbD i) h1
  have a2 := congrArg (fun b => b.getLsbD (i - 4)) h2
  have a3 := congrArg (fun b => b.getLsbD (i - 8)) h3
  have a4 := congrArg (fun b => b.getLsbD (i - 13)) h4
  simp only [lastErr, firstErr, errLog, statusReserved, BitVec.getLsbD_extractLsb'] at a1 a2 a3 a4
  rcases Nat.lt_or_ge i 4 with h | h
  · simpa [h] using a1
  rcases Nat.lt_or_ge i 8 with h' | h'
  · have e : 4 + (i - 4) = i := by omega
    have l : i - 4 < 4 := by omega
    simpa [e, l] using a2
  rcases Nat.lt_or_ge i 13 with h'' | h''
  · have e : 8 + (i - 8) = i := by omega
    have l : i - 8 < 5 := by omega
    simpa [e, l] using a3
  · have e : 13 + (i - 13) = i := by omega
    have l : i - 13 < 19 := by omega
    simpa [e, l] using a4

end Sys2Proof.Machine
end

