-- ==== Sys2Proof/Laws/Memory.lean ====
section
/-! SUPPORT. Storage: read after write, the bits of a word, runs of writes, and the canonical form, which every storage
operation keeps. -/

namespace Sys2Proof.Machine

/-! ### Sparse cells -/

@[simp] theorem Sparse.cellAt_nil {α : Type} (j : Nat) : Sparse.cellAt ([] : Sparse α) j = none := rfl

theorem Sparse.cellAt_store {α : Type} (m : Sparse α) (j i : Nat) (x : α) :
    Sparse.cellAt (Sparse.store m j x) i = if i = j then some x else Sparse.cellAt m i := by
  induction m with
  | nil => simp [Sparse.store, Sparse.cellAt, eq_comm]
  | cons c rest ih =>
    obtain ⟨k, y⟩ := c
    simp only [Sparse.store]
    split
    · by_cases h : i = j
      · simp [Sparse.cellAt, h]
      · simp [Sparse.cellAt, h, Ne.symm h]
    · split
      · next h2 =>
        subst h2
        by_cases h : i = j
        · simp [Sparse.cellAt, h]
        · simp [Sparse.cellAt, h, Ne.symm h]
      · next h1 h2 =>
        simp only [Sparse.cellAt, ih]
        by_cases h : k = i
        · have : i ≠ j := by omega
          simp [h, this]
        · simp [h]

theorem Sparse.cellAt_unlist {α : Type} (m : Sparse α) (j i : Nat) :
    Sparse.cellAt (Sparse.unlist m j) i = if i = j then none else Sparse.cellAt m i := by
  induction m with
  | nil => simp [Sparse.unlist]
  | cons c rest ih =>
    obtain ⟨k, y⟩ := c
    simp only [Sparse.unlist] at ih ⊢
    by_cases hk : k = j
    · subst hk
      by_cases h : i = k
      · simpa [h] using ih
      · simpa [Sparse.cellAt, h, Ne.symm h] using ih
    · by_cases h : k = i
      · subst h; simp [Sparse.cellAt, hk]
      · simp [Sparse.cellAt, hk, h, ih]

theorem Sparse.mem_store {α : Type} {m : Sparse α} {j : Nat} {x : α} {c : Nat × α} (h : c ∈ Sparse.store m j x) :
    c = (j, x) ∨ c ∈ m := by
  induction m with
  | nil => simpa [Sparse.store] using h
  | cons d rest ih =>
    obtain ⟨k, y⟩ := d
    simp only [Sparse.store] at h
    split at h
    · simpa using h
    · split at h
      · rcases List.mem_cons.1 h with h | h
        · exact .inl h
        · exact .inr (List.mem_cons_of_mem _ h)
      · rcases List.mem_cons.1 h with h | h
        · exact .inr (h ▸ List.mem_cons_self)
        · exact (ih h).imp_right (List.mem_cons_of_mem _)

theorem Sparse.mem_unlist {α : Type} {m : Sparse α} {j : Nat} {c : Nat × α} :
    c ∈ Sparse.unlist m j ↔ c ∈ m ∧ c.1 ≠ j := by
  simp [Sparse.unlist]

theorem Sparse.rising_store {α : Type} {m : Sparse α} (h : m.Rising) (j : Nat) (x : α) :
    Sparse.Rising (Sparse.store m j x) := by
  induction m with
  | nil => simp [Sparse.store, Sparse.Rising]
  | cons d rest ih =>
    obtain ⟨k, y⟩ := d
    have hr := List.pairwise_cons.1 h
    simp only [Sparse.store]
    split
    · next hj =>
      refine List.pairwise_cons.2 ⟨fun c hc => ?_, h⟩
      rcases List.mem_cons.1 hc with rfl | hc
      · exact hj
      · exact Nat.lt_trans hj (hr.1 c hc)
    · split
      · next hj => subst hj; exact List.pairwise_cons.2 ⟨hr.1, hr.2⟩
      · next h1 h2 =>
        refine List.pairwise_cons.2 ⟨fun c hc => ?_, ih hr.2⟩
        rcases Sparse.mem_store hc with rfl | hc
        · show k < j; omega
        · exact hr.1 c hc

theorem Sparse.rising_unlist {α : Type} {m : Sparse α} (h : m.Rising) (j : Nat) : Sparse.Rising (Sparse.unlist m j) :=
  List.Pairwise.filter _ h

theorem Sparse.cellAt_eq_some_of_mem {α : Type} {m : Sparse α} (h : m.Rising) {j : Nat} {x : α} (hm : (j, x) ∈ m) :
    Sparse.cellAt m j = some x := by
  induction m with
  | nil => simp at hm
  | cons d rest ih =>
    obtain ⟨k, y⟩ := d
    have hr := List.pairwise_cons.1 h
    rcases List.mem_cons.1 hm with e | hm
    · cases e; simp [Sparse.cellAt]
    · have : k < j := hr.1 _ hm
      simp [Sparse.cellAt, Nat.ne_of_lt this, ih hr.2 hm]

theorem Sparse.mem_of_cellAt {α : Type} {m : Sparse α} {j : Nat} {x : α} (h : Sparse.cellAt m j = some x) :
    (j, x) ∈ m := by
  induction m with
  | nil => simp at h
  | cons d rest ih =>
    obtain ⟨k, y⟩ := d
    simp only [Sparse.cellAt] at h
    split at h
    · next hk => cases h; subst hk; exact List.mem_cons_self
    · exact List.mem_cons_of_mem _ (ih h)

/-- Rising lists with the same content at every address are the same list. -/
theorem Sparse.ext_cellAt {α : Type} {m n : Sparse α} (hm : m.Rising) (hn : n.Rising)
    (h : ∀ j, Sparse.cellAt m j = Sparse.cellAt n j) : m = n := by
  induction m generalizing n with
  | nil =>
    cases n with
    | nil => rfl
    | cons d rest => have := h d.1; simp [Sparse.cellAt] at this
  | cons c rest ih =>
    obtain ⟨k, x⟩ := c
    cases n with
    | nil => have := h k; simp [Sparse.cellAt] at this
    | cons d rest' =>
      obtain ⟨l, y⟩ := d
      have hc := List.pairwise_cons.1 hm
      have hd := List.pairwise_cons.1 hn
      have hkl : k = l := by
        have a := h k; have b := h l
        simp only [Sparse.cellAt, if_pos] at a b
        by_contra hne
        rw [if_neg (Ne.symm hne)] at a
        rw [if_neg hne] at b
        have h1 := hd.1 _ (Sparse.mem_of_cellAt a.symm)
        have h2 := hc.1 _ (Sparse.mem_of_cellAt b)
        simp only at h1 h2
        omega
      subst hkl
      have hxy := h k
      simp only [Sparse.cellAt, if_pos, Option.some.injEq] at hxy
      subst hxy
      rw [ih hc.2 hd.2 fun j => ?_]
      have hj := h j
      simp only [Sparse.cellAt] at hj
      by_cases e : k = j
      · subst e
        have a : Sparse.cellAt rest k = none := by
          cases e : Sparse.cellAt rest k with
          | none => rfl
          | some z => exact absurd (hc.1 _ (Sparse.mem_of_cellAt e)) (Nat.lt_irrefl _)
        have b : Sparse.cellAt rest' k = none := by
          cases e : Sparse.cellAt rest' k with
          | none => rfl
          | some z => exact absurd (hd.1 _ (Sparse.mem_of_cellAt e)) (Nat.lt_irrefl _)
        rw [a, b]
      · simpa [e] using hj

/-! ### Words -/

@[simp] theorem WordMem.read_nil (j : Nat) : WordMem.read [] j = 0#32 := rfl

/-- READ AFTER WRITE: the word written, and every other word as before. -/
theorem WordMem.read_write (m : WordMem) (j i : Nat) (w : Word) :
    (m.write j w).read i = if i = j then w else m.read i := by
  simp only [WordMem.write, WordMem.read]
  split
  · next h => subst h; rw [Sparse.cellAt_unlist]; split <;> rfl
  · rw [Sparse.cellAt_store]; split <;> rfl

/-- A write keeps the canonical form. -/
theorem WordMem.wf_write {m : WordMem} (h : m.wf) (j : Nat) (w : Word) : (m.write j w).wf := by
  simp only [WordMem.write]
  split
  · exact ⟨Sparse.rising_unlist h.1 j, fun c hc => h.2 c (Sparse.mem_unlist.1 hc).1⟩
  · next hw =>
    refine ⟨Sparse.rising_store h.1 j w, fun c hc => ?_⟩
    rcases Sparse.mem_store hc with rfl | hc
    · exact hw
    · exact h.2 c hc

theorem WordMem.wf_nil : WordMem.wf [] := ⟨List.Pairwise.nil, fun _ h => absurd h List.not_mem_nil⟩

/-- A listed word is the one read at its index. -/
theorem WordMem.read_eq_of_mem {m : WordMem} (h : m.wf) {j : Nat} {w : Word} (hm : (j, w) ∈ m) : m.read j = w := by
  simp [WordMem.read, Sparse.cellAt_eq_some_of_mem h.1 hm]

/-- A word that does not read as an unlisted one is listed. -/
theorem WordMem.mem_of_read_ne {m : WordMem} {j : Nat} (h : m.read j ≠ unlistedWord) : (j, m.read j) ∈ m := by
  simp only [WordMem.read] at h ⊢
  cases e : Sparse.cellAt m j with
  | none => simp [e] at h
  | some x => simpa using Sparse.mem_of_cellAt e

/-- Equal memories are equal lists: canonical storages that read the same everywhere are the same. -/
theorem WordMem.ext_read {m n : WordMem} (hm : m.wf) (hn : n.wf) (h : ∀ j, m.read j = n.read j) : m = n := by
  have key : ∀ {p : WordMem}, p.wf → ∀ j, Sparse.cellAt p j = if p.read j = unlistedWord then none else some (p.read j) := by
    intro p hp j
    have gen : ∀ o : Option Word, (∀ x, o = some x → x ≠ unlistedWord) →
        o = if o.getD unlistedWord = unlistedWord then none else some (o.getD unlistedWord) := by
      rintro (_ | x) ho
      · simp
      · simp [ho x rfl]
    exact gen _ fun x e => hp.2 _ (Sparse.mem_of_cellAt e)
  refine Sparse.ext_cellAt hm.1 hn.1 fun j => ?_
  rw [key hm, key hn, h]

/-- A run of writes: word `base + j` reads `f j`, every other word as before. -/
theorem WordMem.read_writeRun (m : WordMem) (base : Nat) (f : Nat → Word) (n i : Nat) :
    (m.writeRun base f n).read i = if base ≤ i ∧ i < base + n then f (i - base) else m.read i := by
  induction n generalizing m with
  | zero => rw [if_neg (by omega)]; rfl
  | succ n ih =>
    rw [WordMem.writeRun, ih, WordMem.read_write]
    by_cases h : base ≤ i ∧ i < base + n
    · rw [if_pos h, if_pos ⟨h.1, by omega⟩]
    · rw [if_neg h]
      by_cases e : i = base + n
      · subst e; simp
      · rw [if_neg e, if_neg (by omega)]

/-- A run of writes keeps the canonical form. -/
theorem WordMem.wf_writeRun {m : WordMem} (h : m.wf) (base : Nat) (f : Nat → Word) (n : Nat) :
    (m.writeRun base f n).wf := by
  induction n generalizing m with
  | zero => exact h
  | succ n ih => exact ih (WordMem.wf_write h _ _)

/-! ### Bits -/

/-- READ AFTER WRITE of one bit: the bit written, and every other bit of every word as before (20_memory.md R64). -/
theorem WordMem.bit_putBit (m : WordMem) (j k : Nat) (b : Bool) (i l : Nat) (hk : k < 32) :
    (m.putBit j k b).bit i l = if i = j ∧ l = k then b else m.bit i l := by
  simp only [WordMem.bit, WordMem.putBit, WordMem.read_write]
  by_cases hi : i = j
  · subst hi
    simp only [if_pos, true_and, BitVec.getLsbD_or, BitVec.getLsbD_and, BitVec.getLsbD_not, BitVec.getLsbD_shiftLeft,
      BitVec.getLsbD_setWidth, BitVec.getLsbD_one, BitVec.getLsbD_ofBool]
    by_cases hl : l = k
    · subst hl; simp [hk]
    · rw [if_neg hl]
      by_cases h32 : l < 32
      · rcases Nat.lt_or_gt_of_ne hl with h | h
        · simp [h32, h]
        · have : l - k ≠ 0 := by omega
          have h' : ¬ l < k := by omega
          simp [h32, h', this]
      · have hz : (m.read i).getLsbD l = false := BitVec.getLsbD_of_ge _ _ (by omega)
        simp [h32, hz]
  · rw [if_neg hi, if_neg fun h => hi h.1]

theorem WordMem.wf_putBit {m : WordMem} (h : m.wf) (j k : Nat) (b : Bool) : (m.putBit j k b).wf :=
  WordMem.wf_write h _ _

/-- Words whose bits agree read the same. -/
theorem WordMem.read_eq_of_bits {m n : WordMem} {j : Nat} (h : ∀ k < 32, m.bit j k = n.bit j k) :
    m.read j = n.read j :=
  BitVec.eq_of_getLsbD_eq h

theorem getLsbD_lowBits (f : Nat → Bool) (n k : Nat) :
    (lowBits f n).getLsbD k = (decide (k < n ∧ k < 32) && f k) := by
  induction n with
  | zero => simp [lowBits]
  | succ n ih =>
    simp only [lowBits, BitVec.getLsbD_or, ih, BitVec.getLsbD_shiftLeft, BitVec.getLsbD_setWidth, BitVec.getLsbD_ofBool]
    by_cases h32 : k < 32
    · rcases Nat.lt_trichotomy k n with h | h | h
      · simp [h, h32, Nat.lt_succ_of_lt h]
      · subst h; simp [h32]
      · have h1 : ¬ k < n := by omega
        have h2 : ¬ k < n + 1 := by omega
        have h3 : k - n ≠ 0 := by omega
        simp [h1, h2, h3]
    · simp [h32]

/-- The word built from bits has those bits. -/
@[simp] theorem getLsbD_wordOfBits (f : Nat → Bool) (k : Nat) :
    (wordOfBits f).getLsbD k = (decide (k < 32) && f k) := by
  simp [wordOfBits, getLsbD_lowBits]

/-! ### Vectors -/

@[simp] theorem VecSlot.vput_size (d : VecSlot) (i : Nat) (b : Bool) : (d.vput i b).size = d.size := rfl

/-- `vput` changes one bit (20_memory.md R64). -/
theorem VecSlot.vbit_vput (d : VecSlot) (i j : Nat) (b : Bool) :
    (d.vput i b).vbit j = if j = i then b else d.vbit j := by
  simp only [VecSlot.vbit, VecSlot.vput]
  rw [WordMem.bit_putBit _ _ _ _ _ _ (Nat.mod_lt _ (by decide))]
  by_cases h : j = i
  · simp [h]
  · have : ¬(j / 32 = i / 32 ∧ j % 32 = i % 32) := by omega
    rw [if_neg this, if_neg h]

@[simp] theorem VecSlot.vputRun_size (d : VecSlot) (start : Nat) (f : Nat → Bool) (n : Nat) :
    (d.vputRun start f n).size = d.size := by
  induction n with
  | zero => rfl
  | succ n ih => simpa [VecSlot.vputRun] using ih

/-- A run of `vput`: bit `start + k` is `f k`, every other bit as before. -/
theorem VecSlot.vbit_vputRun (d : VecSlot) (start : Nat) (f : Nat → Bool) (n j : Nat) :
    (d.vputRun start f n).vbit j = if start ≤ j ∧ j < start + n then f (j - start) else d.vbit j := by
  induction n with
  | zero => rw [if_neg (by omega)]; rfl
  | succ n ih =>
    rw [VecSlot.vputRun, VecSlot.vbit_vput, ih]
    by_cases e : j = start + n
    · subst e; simp
    · rw [if_neg e]
      by_cases h : start ≤ j ∧ j < start + n
      · rw [if_pos h, if_pos ⟨h.1, by omega⟩]
      · rw [if_neg h, if_neg (by omega)]

theorem VecSlot.wf_vput {d : VecSlot} (h : d.words.wf) (i : Nat) (b : Bool) : (d.vput i b).words.wf :=
  WordMem.wf_putBit h _ _ _

theorem VecSlot.wf_vputRun {d : VecSlot} (h : d.words.wf) (start : Nat) (f : Nat → Bool) (n : Nat) :
    (d.vputRun start f n).words.wf := by
  induction n with
  | zero => exact h
  | succ n ih => exact VecSlot.wf_vput ih _ _

/-- The field read: bit `k` of the result is the vector's bit `off + n - 1 - k` (40_vector_commands.md R136). -/
theorem VecSlot.getLsbD_field (d : VecSlot) (off n k : Nat) :
    (d.field off n).getLsbD k = (decide (k < n ∧ k < 32) && d.vbit (off + (n - 1 - k))) := by
  induction n generalizing k with
  | zero => simp [VecSlot.field]
  | succ n ih =>
    simp only [VecSlot.field, BitVec.getLsbD_or, BitVec.getLsbD_shiftLeft, BitVec.getLsbD_setWidth,
      BitVec.getLsbD_ofBool]
    cases k with
    | zero => simp
    | succ k =>
      rw [show k + 1 - 1 = k from rfl, ih, show n + 1 - 1 - (k + 1) = n - 1 - k by omega]
      by_cases h : k + 1 < 32
      · have : k < 32 := by omega
        simp [h, this]
      · simp [h]

/-- A serialised byte: bit `7 - k` is the vector's bit `off + k` (40_vector_commands.md R138). -/
theorem VecSlot.getLsbD_byteAt (d : VecSlot) (off k : Nat) (hk : k < 8) :
    (d.byteAt off).getLsbD (7 - k) = d.vbit (off + k) := by
  interval_cases k <;> simp [VecSlot.byteAt, VecSlot.byteSteps]

/-! ### The byte buffer -/

/-- A run of byte writes: byte `base + j` is `f j`, every other byte as before. -/
theorem ByteMem.byteAt?_writeRun (m : ByteMem) (base : Nat) (f : Nat → Byte) (n i : Nat) :
    ByteMem.byteAt? (ByteMem.writeRun m base f n) i =
      if base ≤ i ∧ i < base + n then some (f (i - base)) else ByteMem.byteAt? m i := by
  induction n generalizing m with
  | zero => rw [if_neg (by omega)]; rfl
  | succ n ih =>
    rw [ByteMem.writeRun, ih]
    by_cases h : base ≤ i ∧ i < base + n
    · rw [if_pos h, if_pos ⟨h.1, by omega⟩]
    · rw [if_neg h]
      simp only [ByteMem.byteAt?, Sparse.cellAt_store]
      by_cases e : i = base + n
      · subst e; simp
      · rw [if_neg e, if_neg (by omega)]

theorem ByteMem.wf_writeRun {m : ByteMem} (h : ByteMem.wf m) (base : Nat) (f : Nat → Byte) (n : Nat) :
    ByteMem.wf (ByteMem.writeRun m base f n) := by
  induction n generalizing m with
  | zero => exact h
  | succ n ih => exact ih (Sparse.rising_store h _ _)

/-! ### Matrices -/

@[simp] theorem MatSlot.mput_width (d : MatSlot) (x y : Nat) (b : Bool) : (d.mput x y b).width = d.width := rfl
@[simp] theorem MatSlot.mput_height (d : MatSlot) (x y : Nat) (b : Bool) : (d.mput x y b).height = d.height := rfl
@[simp] theorem MatSlot.mput_stride (d : MatSlot) (x y : Nat) (b : Bool) : (d.mput x y b).stride = d.stride := rfl
@[simp] theorem MatSlot.rewrite_width (d : MatSlot) (f : Nat → Nat → Bool) : (d.rewrite f).width = d.width := rfl
@[simp] theorem MatSlot.rewrite_height (d : MatSlot) (f : Nat → Nat → Bool) : (d.rewrite f).height = d.height := rfl
@[simp] theorem MatSlot.rewrite_stride (d : MatSlot) (f : Nat → Nat → Bool) : (d.rewrite f).stride = d.stride := rfl

theorem lt_ceilDiv32 {x n : Nat} (h : x < n) : x / 32 < ceilDiv32 n := by
  unfold ceilDiv32; omega

/-- Two logical bits of a row-major matrix share a word and a place in it only if they are the same bit
(20_memory.md R65). -/
theorem MatSlot.place_inj {d : MatSlot} (hs : d.stride = ceilDiv32 d.width) {x y x' y' : Nat} (hx : x < d.width)
    (hx' : x' < d.width) (hw : d.wordIndex x y = d.wordIndex x' y') (hb : x % 32 = x' % 32) : x = x' ∧ y = y' := by
  have h1 := lt_ceilDiv32 hx
  have h2 := lt_ceilDiv32 hx'
  rw [← hs] at h1 h2
  simp only [MatSlot.wordIndex] at hw
  have hpos : 0 < d.stride := by omega
  have e1 : (y * d.stride + x / 32) / d.stride = y := by
    rw [Nat.mul_comm, Nat.mul_add_div hpos, Nat.div_eq_of_lt h1, Nat.add_zero]
  have e2 : (y' * d.stride + x' / 32) / d.stride = y' := by
    rw [Nat.mul_comm, Nat.mul_add_div hpos, Nat.div_eq_of_lt h2, Nat.add_zero]
  have hy : y = y' := by rw [← e1, ← e2, hw]
  subst hy
  exact ⟨by omega, rfl⟩

/-- `mput` changes one logical bit (20_memory.md R67). -/
theorem MatSlot.mbit_mput {d : MatSlot} (hs : d.stride = ceilDiv32 d.width) {x y x' y' : Nat} (b : Bool)
    (hx : x < d.width) (hx' : x' < d.width) :
    (d.mput x y b).mbit x' y' = if x' = x ∧ y' = y then b else d.mbit x' y' := by
  show (d.words.putBit (d.wordIndex x y) (x % 32) b).bit (d.wordIndex x' y') (x' % 32) = _
  rw [WordMem.bit_putBit _ _ _ _ _ _ (Nat.mod_lt _ (by decide))]
  by_cases h : x' = x ∧ y' = y
  · obtain ⟨rfl, rfl⟩ := h; simp
  · rw [if_neg h, if_neg fun hc => h (MatSlot.place_inj hs hx' hx hc.1 hc.2)]; rfl

theorem MatSlot.wf_mput {d : MatSlot} (h : d.words.wf) (x y : Nat) (b : Bool) : (d.mput x y b).words.wf :=
  WordMem.wf_putBit h _ _ _

/-- Every logical bit of a rewritten matrix is the function's (20_memory.md R65). -/
theorem MatSlot.mbit_rewrite {d : MatSlot} (hs : d.stride = ceilDiv32 d.width) (f : Nat → Nat → Bool) {x y : Nat}
    (hx : x < d.width) (hy : y < d.height) : (d.rewrite f).mbit x y = f x y := by
  have h1 := lt_ceilDiv32 hx
  rw [← hs] at h1
  have hpos : 0 < d.stride := by omega
  have hlt : y * d.stride + x / 32 < d.stride * d.height := by
    calc y * d.stride + x / 32 < y * d.stride + d.stride := by omega
      _ = (y + 1) * d.stride := by rw [Nat.add_mul, Nat.one_mul]
      _ ≤ d.height * d.stride := Nat.mul_le_mul_right _ hy
      _ = d.stride * d.height := Nat.mul_comm _ _
  have e1 : (y * d.stride + x / 32) / d.stride = y := by
    rw [Nat.mul_comm, Nat.mul_add_div hpos, Nat.div_eq_of_lt h1, Nat.add_zero]
  have e2 : (y * d.stride + x / 32) % d.stride = x / 32 := by
    rw [Nat.mul_comm, Nat.mul_add_mod, Nat.mod_eq_of_lt h1]
  have e3 : 32 * (x / 32) + x % 32 = x := by omega
  show WordMem.bit _ (y * d.stride + x / 32) (x % 32) = _
  simp only [WordMem.bit, MatSlot.rewrite, WordMem.read_writeRun]
  rw [if_pos ⟨Nat.zero_le _, by omega⟩, getLsbD_wordOfBits]
  simp [e1, e2, e3, hx, Nat.mod_lt]

theorem MatSlot.wf_rewrite (d : MatSlot) (f : Nat → Nat → Bool) : (d.rewrite f).words.wf :=
  WordMem.wf_writeRun WordMem.wf_nil _ _ _

/-! ### Searches -/

theorem leastBelow_eq_some {p : Nat → Bool} {n i : Nat} :
    leastBelow p n = some i ↔ i < n ∧ p i = true ∧ ∀ j < i, p j = false := by
  simp [leastBelow, List.find?_range_eq_some, and_left_comm]

theorem leastBelow_eq_none {p : Nat → Bool} {n : Nat} : leastBelow p n = none ↔ ∀ j < n, p j = false := by
  simp [leastBelow]

theorem greatestBelow_eq_some {p : Nat → Bool} {n i : Nat} :
    greatestBelow p n = some i ↔ i < n ∧ p i = true ∧ ∀ j, i < j → j < n → p j = false := by
  induction n with
  | zero => simp [greatestBelow]
  | succ n ih =>
    simp only [greatestBelow]
    split
    · next h =>
      constructor
      · intro e; cases e; exact ⟨by omega, h, fun j _ _ => by omega⟩
      · rintro ⟨h1, _, h3⟩
        rcases Nat.lt_or_ge i n with hi | hi
        · rw [h3 n hi (by omega)] at h; cases h
        · rw [show n = i by omega]
    · next h =>
      rw [ih]
      constructor
      · rintro ⟨h1, h2, h3⟩
        refine ⟨by omega, h2, fun j hj hjn => ?_⟩
        rcases Nat.lt_or_ge j n with hl | hl
        · exact h3 j hj hl
        · rw [show j = n by omega]; simpa using h
      · rintro ⟨h1, h2, h3⟩
        have : i ≠ n := fun e => h (e ▸ h2)
        exact ⟨by omega, h2, fun j hj hjn => h3 j hj (by omega)⟩

theorem greatestBelow_eq_none {p : Nat → Bool} {n : Nat} : greatestBelow p n = none ↔ ∀ j < n, p j = false := by
  induction n with
  | zero => simp [greatestBelow]
  | succ n ih =>
    simp only [greatestBelow]
    split
    · next h => simp only [reduceCtorEq, false_iff, not_forall]; exact ⟨n, by omega, by simp [h]⟩
    · next h =>
      rw [ih]
      refine ⟨fun hj j hlt => ?_, fun hj j hlt => hj j (by omega)⟩
      rcases Nat.lt_or_ge j n with hl | hl
      · exact hj j hl
      · rw [show j = n by omega]; simpa using h

theorem MatSlot.rowHasBit_iff {d : MatSlot} {y : Nat} :
    d.rowHasBit y = true ↔ ∃ x < d.width, d.mbit x y = true := by
  simp [MatSlot.rowHasBit]

theorem MatSlot.colHasBit_iff {d : MatSlot} {x : Nat} :
    d.colHasBit x = true ↔ ∃ y < d.height, d.mbit x y = true := by
  simp [MatSlot.colHasBit]

end Sys2Proof.Machine
end

