-- ==== Sys2Proof/Laws/State.lean ====
section
/-! SUPPORT. One lemma per field per state update, and reading back what was set, so that no later proof unfolds an update. -/

namespace Sys2Proof.Machine

@[simp] theorem Quad.get_set_self {α : Type} (q : Quad α) (k : Fin 4) (x : α) : (q.set k x).get k = x := by
  fin_cases k <;> rfl

@[simp] theorem Quad.get_set_ne {α : Type} (q : Quad α) {j k : Fin 4} (x : α) (h : j ≠ k) :
    (q.set k x).get j = q.get j := by
  revert h; revert j k; intro j k; fin_cases j <;> fin_cases k <;> simp [Quad.get, Quad.set]

theorem Quad.get_set {α : Type} (q : Quad α) (j k : Fin 4) (x : α) :
    (q.set k x).get j = if j = k then x else q.get j := by
  split
  · next h => rw [h, Quad.get_set_self]
  · next h => rw [Quad.get_set_ne _ _ h]

@[simp] theorem Quad.get_fill {α : Type} (x : α) (k : Fin 4) : (Quad.fill x).get k = x := by
  fin_cases k <;> rfl

/-- Two quadruples with the same four elements are the same. -/
theorem Quad.ext_get {α : Type} {p q : Quad α} (h : ∀ k, p.get k = q.get k) : p = q := by
  obtain ⟨p0, p1, p2, p3⟩ := p
  obtain ⟨q0, q1, q2, q3⟩ := q
  have h0 := h 0; have h1 := h 1; have h2 := h 2; have h3 := h 3
  simp only [Quad.get] at h0 h1 h2 h3
  subst h0 h1 h2 h3; rfl

@[simp] theorem Quad.set_get_self {α : Type} (q : Quad α) (k : Fin 4) : q.set k (q.get k) = q := by
  fin_cases k <;> rfl

@[simp] theorem Quad.set_set {α : Type} (q : Quad α) (k : Fin 4) (x y : α) : (q.set k x).set k y = q.set k y := by
  fin_cases k <;> rfl

/-! ### `succeed` -/

@[simp] theorem State.succeed_params (s : State) (r : Quad Word) : (s.succeed r).params = s.params := rfl
@[simp] theorem State.succeed_arg (s : State) (r : Quad Word) : (s.succeed r).arg = s.arg := rfl
@[simp] theorem State.succeed_res (s : State) (r : Quad Word) : (s.succeed r).res = r := rfl
@[simp] theorem State.succeed_cmd (s : State) (r : Quad Word) : (s.succeed r).cmd = s.cmd := rfl
@[simp] theorem State.succeed_status (s : State) (r : Quad Word) : (s.succeed r).status = statusOnSuccess s.status := rfl
@[simp] theorem State.succeed_errCmd (s : State) (r : Quad Word) : (s.succeed r).errCmd = s.errCmd := rfl
@[simp] theorem State.succeed_errArg (s : State) (r : Quad Word) : (s.succeed r).errArg = s.errArg := rfl
@[simp] theorem State.succeed_vec (s : State) (r : Quad Word) : (s.succeed r).vec = s.vec := rfl
@[simp] theorem State.succeed_mat (s : State) (r : Quad Word) : (s.succeed r).mat = s.mat := rfl
@[simp] theorem State.succeed_bb (s : State) (r : Quad Word) : (s.succeed r).bb = s.bb := rfl
@[simp] theorem State.succeed_inReset (s : State) (r : Quad Word) : (s.succeed r).inReset = s.inReset := rfl
@[simp] theorem State.succeed_events (s : State) (r : Quad Word) : (s.succeed r).events = s.events := rfl
@[simp] theorem State.succeed_reads (s : State) (r : Quad Word) : (s.succeed r).reads = s.reads := rfl
@[simp] theorem State.succeed_freeCount (s : State) (r : Quad Word) : (s.succeed r).freeCount = s.freeCount := rfl

/-! ### `takeFault` -/

@[simp] theorem State.takeFault_params (s : State) (c : Cause) : (s.takeFault c).params = s.params := rfl
@[simp] theorem State.takeFault_arg (s : State) (c : Cause) : (s.takeFault c).arg = s.arg := rfl
@[simp] theorem State.takeFault_res (s : State) (c : Cause) : (s.takeFault c).res = s.res := rfl
@[simp] theorem State.takeFault_cmd (s : State) (c : Cause) : (s.takeFault c).cmd = s.cmd := rfl
@[simp] theorem State.takeFault_status (s : State) (c : Cause) : (s.takeFault c).status = statusOnFault s.status c := rfl
@[simp] theorem State.takeFault_errCmd (s : State) (c : Cause) : (s.takeFault c).errCmd = if firstErr s.status = 0#4 then s.cmd else s.errCmd := rfl
@[simp] theorem State.takeFault_errArg (s : State) (c : Cause) : (s.takeFault c).errArg = if firstErr s.status = 0#4 then s.arg else s.errArg := rfl
@[simp] theorem State.takeFault_vec (s : State) (c : Cause) : (s.takeFault c).vec = s.vec := rfl
@[simp] theorem State.takeFault_mat (s : State) (c : Cause) : (s.takeFault c).mat = s.mat := rfl
@[simp] theorem State.takeFault_bb (s : State) (c : Cause) : (s.takeFault c).bb = s.bb := rfl
@[simp] theorem State.takeFault_inReset (s : State) (c : Cause) : (s.takeFault c).inReset = s.inReset := rfl
@[simp] theorem State.takeFault_events (s : State) (c : Cause) : (s.takeFault c).events = s.events := rfl
@[simp] theorem State.takeFault_reads (s : State) (c : Cause) : (s.takeFault c).reads = s.reads := rfl
@[simp] theorem State.takeFault_freeCount (s : State) (c : Cause) : (s.takeFault c).freeCount = s.freeCount := rfl

/-! ### `clearFaultRecord` -/

@[simp] theorem State.clearFaultRecord_params (s : State) : (s.clearFaultRecord).params = s.params := rfl
@[simp] theorem State.clearFaultRecord_arg (s : State) : (s.clearFaultRecord).arg = s.arg := rfl
@[simp] theorem State.clearFaultRecord_res (s : State) : (s.clearFaultRecord).res = s.res := rfl
@[simp] theorem State.clearFaultRecord_cmd (s : State) : (s.clearFaultRecord).cmd = s.cmd := rfl
@[simp] theorem State.clearFaultRecord_status (s : State) : (s.clearFaultRecord).status = statusOnErrClr s.status := rfl
@[simp] theorem State.clearFaultRecord_errCmd (s : State) : (s.clearFaultRecord).errCmd = 0#32 := rfl
@[simp] theorem State.clearFaultRecord_errArg (s : State) : (s.clearFaultRecord).errArg = Quad.fill 0#32 := rfl
@[simp] theorem State.clearFaultRecord_vec (s : State) : (s.clearFaultRecord).vec = s.vec := rfl
@[simp] theorem State.clearFaultRecord_mat (s : State) : (s.clearFaultRecord).mat = s.mat := rfl
@[simp] theorem State.clearFaultRecord_bb (s : State) : (s.clearFaultRecord).bb = s.bb := rfl
@[simp] theorem State.clearFaultRecord_inReset (s : State) : (s.clearFaultRecord).inReset = s.inReset := rfl
@[simp] theorem State.clearFaultRecord_events (s : State) : (s.clearFaultRecord).events = s.events := rfl
@[simp] theorem State.clearFaultRecord_reads (s : State) : (s.clearFaultRecord).reads = s.reads := rfl
@[simp] theorem State.clearFaultRecord_freeCount (s : State) : (s.clearFaultRecord).freeCount = s.freeCount := rfl

/-! ### `setVec` -/

@[simp] theorem State.setVec_params (s : State) (v : Fin 4) (d : VecSlot) : (s.setVec v d).params = s.params := rfl
@[simp] theorem State.setVec_arg (s : State) (v : Fin 4) (d : VecSlot) : (s.setVec v d).arg = s.arg := rfl
@[simp] theorem State.setVec_res (s : State) (v : Fin 4) (d : VecSlot) : (s.setVec v d).res = s.res := rfl
@[simp] theorem State.setVec_cmd (s : State) (v : Fin 4) (d : VecSlot) : (s.setVec v d).cmd = s.cmd := rfl
@[simp] theorem State.setVec_status (s : State) (v : Fin 4) (d : VecSlot) : (s.setVec v d).status = s.status := rfl
@[simp] theorem State.setVec_errCmd (s : State) (v : Fin 4) (d : VecSlot) : (s.setVec v d).errCmd = s.errCmd := rfl
@[simp] theorem State.setVec_errArg (s : State) (v : Fin 4) (d : VecSlot) : (s.setVec v d).errArg = s.errArg := rfl
@[simp] theorem State.setVec_vec (s : State) (v : Fin 4) (d : VecSlot) : (s.setVec v d).vec = s.vec.set v d := rfl
@[simp] theorem State.setVec_mat (s : State) (v : Fin 4) (d : VecSlot) : (s.setVec v d).mat = s.mat := rfl
@[simp] theorem State.setVec_bb (s : State) (v : Fin 4) (d : VecSlot) : (s.setVec v d).bb = s.bb := rfl
@[simp] theorem State.setVec_inReset (s : State) (v : Fin 4) (d : VecSlot) : (s.setVec v d).inReset = s.inReset := rfl
@[simp] theorem State.setVec_events (s : State) (v : Fin 4) (d : VecSlot) : (s.setVec v d).events = s.events := rfl
@[simp] theorem State.setVec_reads (s : State) (v : Fin 4) (d : VecSlot) : (s.setVec v d).reads = s.reads := rfl
@[simp] theorem State.setVec_freeCount (s : State) (v : Fin 4) (d : VecSlot) : (s.setVec v d).freeCount = s.freeCount := rfl

/-! ### `setMat` -/

@[simp] theorem State.setMat_params (s : State) (m : Fin 4) (d : MatSlot) : (s.setMat m d).params = s.params := rfl
@[simp] theorem State.setMat_arg (s : State) (m : Fin 4) (d : MatSlot) : (s.setMat m d).arg = s.arg := rfl
@[simp] theorem State.setMat_res (s : State) (m : Fin 4) (d : MatSlot) : (s.setMat m d).res = s.res := rfl
@[simp] theorem State.setMat_cmd (s : State) (m : Fin 4) (d : MatSlot) : (s.setMat m d).cmd = s.cmd := rfl
@[simp] theorem State.setMat_status (s : State) (m : Fin 4) (d : MatSlot) : (s.setMat m d).status = s.status := rfl
@[simp] theorem State.setMat_errCmd (s : State) (m : Fin 4) (d : MatSlot) : (s.setMat m d).errCmd = s.errCmd := rfl
@[simp] theorem State.setMat_errArg (s : State) (m : Fin 4) (d : MatSlot) : (s.setMat m d).errArg = s.errArg := rfl
@[simp] theorem State.setMat_vec (s : State) (m : Fin 4) (d : MatSlot) : (s.setMat m d).vec = s.vec := rfl
@[simp] theorem State.setMat_mat (s : State) (m : Fin 4) (d : MatSlot) : (s.setMat m d).mat = s.mat.set m d := rfl
@[simp] theorem State.setMat_bb (s : State) (m : Fin 4) (d : MatSlot) : (s.setMat m d).bb = s.bb := rfl
@[simp] theorem State.setMat_inReset (s : State) (m : Fin 4) (d : MatSlot) : (s.setMat m d).inReset = s.inReset := rfl
@[simp] theorem State.setMat_events (s : State) (m : Fin 4) (d : MatSlot) : (s.setMat m d).events = s.events := rfl
@[simp] theorem State.setMat_reads (s : State) (m : Fin 4) (d : MatSlot) : (s.setMat m d).reads = s.reads := rfl
@[simp] theorem State.setMat_freeCount (s : State) (m : Fin 4) (d : MatSlot) : (s.setMat m d).freeCount = s.freeCount := rfl

/-! ### `toReset` -/

@[simp] theorem State.toReset_params (s : State) (b : Bool) : (s.toReset b).params = s.params := rfl
@[simp] theorem State.toReset_arg (s : State) (b : Bool) : (s.toReset b).arg = Quad.fill 0#32 := rfl
@[simp] theorem State.toReset_res (s : State) (b : Bool) : (s.toReset b).res = Quad.fill 0#32 := rfl
@[simp] theorem State.toReset_cmd (s : State) (b : Bool) : (s.toReset b).cmd = 0#32 := rfl
@[simp] theorem State.toReset_status (s : State) (b : Bool) : (s.toReset b).status = 0#32 := rfl
@[simp] theorem State.toReset_errCmd (s : State) (b : Bool) : (s.toReset b).errCmd = 0#32 := rfl
@[simp] theorem State.toReset_errArg (s : State) (b : Bool) : (s.toReset b).errArg = Quad.fill 0#32 := rfl
@[simp] theorem State.toReset_vec (s : State) (b : Bool) : (s.toReset b).vec = Quad.fill VecSlot.empty := rfl
@[simp] theorem State.toReset_mat (s : State) (b : Bool) : (s.toReset b).mat = Quad.fill MatSlot.unconfigured := rfl
@[simp] theorem State.toReset_bb (s : State) (b : Bool) : (s.toReset b).bb = [] := rfl
@[simp] theorem State.toReset_inReset (s : State) (b : Bool) : (s.toReset b).inReset = b := rfl
@[simp] theorem State.toReset_events (s : State) (b : Bool) : (s.toReset b).events = s.events := rfl
@[simp] theorem State.toReset_reads (s : State) (b : Bool) : (s.toReset b).reads = s.reads := rfl
@[simp] theorem State.toReset_freeCount (s : State) (b : Bool) : (s.toReset b).freeCount = s.freeCount := rfl

/-- An operand is a 32-bit number (30_encoding.md R108). -/
theorem State.argNat_lt (s : State) (k : Fin 4) : s.argNat k < 2 ^ 32 := (s.arg.get k).isLt

end Sys2Proof.Machine
end

