-- ==== Sys2Proof/Laws/Ops.lean ====
section
/-! SUPPORT. What each shared operation does, once: slots, success, taking a fault and the return from one, and which
addresses exist in a well-formed state. -/

namespace Sys2Proof.Machine

/-! ### Slots -/

/-- A slot number below 4 names its slot. -/
@[simp] theorem withSlot_val (v : Fin 4) (k : Fin 4 → Result) : withSlot v k = k v := by
  simp [withSlot, v.isLt]

theorem withSlot_of_lt {a : Nat} (h : a < 4) (k : Fin 4 → Result) : withSlot a k = k ⟨a, h⟩ := by
  simp [withSlot, h]

/-- A slot number above 3 is refused by name. -/
theorem withSlot_of_ge {a : Nat} (h : 4 ≤ a) (k : Fin 4 → Result) : withSlot a k = .refused .noSuchSlot := by
  simp [withSlot, Nat.not_lt.2 h]

/-- All that `withSlot` can answer with a next state: the slot exists and its body answers it. -/
theorem withSlot_next {a : Nat} {k : Fin 4 → Result} {t : State} (h : withSlot a k = .next t) :
    ∃ v : Fin 4, a = v ∧ k v = .next t := by
  unfold withSlot at h
  split at h
  · next ha => exact ⟨⟨a, ha⟩, rfl, h⟩
  · cases h

@[simp] theorem State.vecAt_val (s : State) (v : Fin 4) : s.vecAt v = s.vec.get v := by simp [State.vecAt, v.isLt]
@[simp] theorem State.matAt_val (s : State) (m : Fin 4) : s.matAt m = s.mat.get m := by simp [State.matAt, m.isLt]

/-! ### Success and faults -/

/-- What `succeed` leaves, when what it is applied to differs from `s` in storage only. -/
theorem succeeds_succeed {s u : State} (r : Quad Word) (hstatus : u.status = s.status) (hparams : u.params = s.params)
    (harg : u.arg = s.arg) (hcmd : u.cmd = s.cmd) (herrCmd : u.errCmd = s.errCmd) (herrArg : u.errArg = s.errArg)
    (hinReset : u.inReset = s.inReset) (hevents : u.events = s.events) (hreads : u.reads = s.reads) :
    Succeeds s (u.succeed r) r.q0 r.q1 r.q2 r.q3 where
  res := rfl
  lastErr := by simp
  firstErr := by simp [hstatus]
  errLog := by simp [hstatus]
  reserved := by simp [hstatus]
  params := hparams
  arg := harg
  cmd := hcmd
  errCmd := herrCmd
  errArg := herrArg
  inReset := hinReset
  events := hevents
  reads := hreads

/-- TAKING A FAULT does exactly what 60_exceptions.md R276 says and nothing else. -/
theorem faults_takeFault (s : State) (c : Cause) : Faults s (s.takeFault c) c where
  lastErr := by simp
  errLog := fun j hj => by simpa using getLsbD_errLogWith s.status c j hj
  first := fun h => by simp only [State.takeFault_status, State.takeFault_errCmd, State.takeFault_errArg,
    firstErr_statusOnFault, if_pos h, and_self]
  later := fun h => by simp only [State.takeFault_status, State.takeFault_errCmd, State.takeFault_errArg,
    firstErr_statusOnFault, if_neg h, and_self]
  reserved := by simp
  params := rfl
  arg := rfl
  res := rfl
  cmd := rfl
  vec := rfl
  mat := rfl
  bb := rfl
  inReset := rfl
  events := rfl
  reads := rfl
  freeCount := rfl

theorem sameStorage_succeed (s : State) (r : Quad Word) : SameStorage s (s.succeed r) := ⟨rfl, rfl, rfl, rfl⟩

theorem onlyVec_setVec (s : State) (v : Fin 4) (d : VecSlot) (r : Quad Word) :
    OnlyVec s ((s.setVec v d).succeed r) v :=
  ⟨fun u hu => by simp [hu], rfl, rfl, rfl⟩

theorem onlyMat_setMat (s : State) (m : Fin 4) (d : MatSlot) (r : Quad Word) :
    OnlyMat s ((s.setMat m d).succeed r) m :=
  ⟨rfl, fun u hu => by simp [hu], rfl, rfl⟩

/-! ### Numbers -/

theorem ceilDiv32_eq (n : Nat) : ceilDiv32 n = (n + 31) / 32 := rfl

/-- A number below 2^32 as a result is that number (00_scope.md R9). -/
theorem toNat_resultOf {n : Nat} (h : n < 2 ^ 32) : (resultOf n).toNat = n := by
  simpa [resultOf] using Nat.mod_eq_of_lt h

@[simp] theorem resultOfBit_eq (b : Bool) : resultOfBit b = if b then 1#32 else 0#32 := by cases b <;> rfl

/-! ### The fault record -/

/-- Success keeps the fault record consistent. -/
theorem recordOk_of_succeed {s t : State} (h : s.RecordOk) (hs : t.status = statusOnSuccess s.status)
    (hc : t.errCmd = s.errCmd) (ha : t.errArg = s.errArg) : t.RecordOk := by
  obtain ⟨h1, _, h3, h4, h5, _, h7⟩ := h
  simp only [State.RecordOk, hs, hc, ha, statusReserved_statusOnSuccess, lastErr_statusOnSuccess,
    firstErr_statusOnSuccess, errLog_statusOnSuccess]
  exact ⟨h1, by decide, h3, h4, h5, fun e => absurd rfl e, h7⟩

/-- Taking a fault keeps the fault record consistent. -/
theorem recordOk_takeFault {s : State} (h : s.RecordOk) (c : Cause) : (s.takeFault c).RecordOk := by
  obtain ⟨h1, _, h3, h4, h5, _, h7⟩ := h
  have hbit : (errLogWith s.status c).getLsbD (c.code.toNat - 1) = true := by
    rw [getLsbD_errLogWith _ _ _ (by cases c <;> decide)]
    cases c <;> simp [Cause.code]
  have hne : errLogWith s.status c ≠ 0#5 := fun e => by simp [e] at hbit
  simp only [State.RecordOk, State.takeFault_status, State.takeFault_errCmd, State.takeFault_errArg,
    statusReserved_statusOnFault, lastErr_statusOnFault, firstErr_statusOnFault, errLog_statusOnFault]
  refine ⟨h1, c.code_le, ?_⟩
  by_cases e : firstErr s.status = 0#4
  · simp only [if_pos e]
    exact ⟨c.code_le, ⟨fun h => absurd h c.code_ne_zero, fun h => absurd h hne⟩, fun h => absurd h c.code_ne_zero,
      fun _ => hbit, fun _ => hbit⟩
  · simp only [if_neg e]
    refine ⟨h3, ⟨fun h => absurd h e, fun h => absurd h hne⟩, fun h => absurd h e, fun _ => hbit, fun _ => ?_⟩
    rw [getLsbD_errLogWith _ _ _ (by omega), h7 e, Bool.true_or]

/-! ### Addresses -/

/-- Bits inside a vector of a well-formed state are bits of existing words (20_memory.md R60). -/
theorem State.Inv.vsBitsExist {s : State} (h : s.Inv) {off n : Nat} (hb : off + n ≤ s.params.vcapBits) :
    s.vsBitsExist off n := by
  have := h.1.1
  exact .inr (by simp only [Params.vcapWords]; omega)

/-- The live words of a vector of a well-formed state exist. -/
theorem State.Inv.vsWordsExist {s : State} (h : s.Inv) {n : Nat} (hb : n ≤ s.params.vcapBits) :
    s.vsWordsExist (ceilDiv32 n) := by
  have := h.1.1
  exact .inr (by simp only [ceilDiv32, Params.vcapWords]; omega)

/-- The live words of a matrix of a well-formed state exist. -/
theorem State.Inv.msLiveExist {s : State} (h : s.Inv) (m : Fin 4) : s.msLiveExist (s.mat.get m) := by
  rcases (h.2.2.1 m).1 with ⟨_, h2, _⟩ | ⟨_, _, _, _, _, h2⟩
  · exact .inl (by simp [h2])
  · exact .inr (by omega)

/-- The words of a row of a configured matrix of a well-formed state exist. -/
theorem State.Inv.msRowExists {s : State} (h : s.Inv) (m : Fin 4) {y : Nat} (hy : y < (s.mat.get m).height) :
    s.msWordsExist (y * (s.mat.get m).stride) (s.mat.get m).stride := by
  rcases (h.2.2.1 m).1 with ⟨_, h2, _⟩ | ⟨_, _, _, _, _, h2⟩
  · omega
  · refine .inr (Nat.le_trans ?_ h2)
    calc y * (s.mat.get m).stride + (s.mat.get m).stride = (y + 1) * (s.mat.get m).stride := by
          rw [Nat.add_mul, Nat.one_mul]
      _ ≤ (s.mat.get m).height * (s.mat.get m).stride := Nat.mul_le_mul_right _ hy
      _ = (s.mat.get m).stride * (s.mat.get m).height := Nat.mul_comm _ _

/-- In a well-formed state a configured matrix has the stride of its width. -/
theorem State.Inv.stride_eq {s : State} (h : s.Inv) (m : Fin 4) :
    (s.mat.get m).stride = ceilDiv32 (s.mat.get m).width := by
  rcases (h.2.2.1 m).1 with ⟨h1, _, h2⟩ | ⟨_, _, _, _, h2, _⟩
  · rw [h1, h2]; rfl
  · exact h2

/-- The word of a logical bit of a well-formed state exists. -/
theorem State.Inv.msWordExists {s : State} (h : s.Inv) (m : Fin 4) {x y : Nat} (hx : x < (s.mat.get m).width)
    (hy : y < (s.mat.get m).height) : s.msWordsExist ((s.mat.get m).wordIndex x y) 1 := by
  have h1 := lt_ceilDiv32 hx
  rw [← h.stride_eq m] at h1
  rcases h.msRowExists m hy with h2 | h2
  · omega
  · exact .inr (by simp only [MatSlot.wordIndex]; omega)

/-! ### The canonical form of memory -/

/-- Every storage space has its canonical form after reset. -/
theorem memory_wf_toReset (s : State) (b : Bool) : Memory.wf (s.toReset b) := by
  refine ⟨fun v => ?_, fun m => ?_, List.Pairwise.nil⟩
  · rw [State.toReset_vec, Quad.get_fill]; exact WordMem.wf_nil
  · rw [State.toReset_mat, Quad.get_fill]; exact WordMem.wf_nil

theorem memory_wf_reset : Memory.wf State.reset := memory_wf_toReset State.reset false

/-- Replacing a vector slot keeps the canonical form if the new slot has it. -/
theorem memory_wf_setVec {s : State} (h : Memory.wf s) (v : Fin 4) {d : VecSlot} (hd : d.words.wf) :
    Memory.wf (s.setVec v d) := by
  refine ⟨fun u => ?_, h.2.1, h.2.2⟩
  rw [State.setVec_vec, Quad.get_set]
  split
  · exact hd
  · exact h.1 u

/-- Replacing a matrix slot keeps the canonical form if the new slot has it. -/
theorem memory_wf_setMat {s : State} (h : Memory.wf s) (m : Fin 4) {d : MatSlot} (hd : d.words.wf) :
    Memory.wf (s.setMat m d) := by
  refine ⟨h.1, fun u => ?_, h.2.2⟩
  rw [State.setMat_mat, Quad.get_set]
  split
  · exact hd
  · exact h.2.1 u

end Sys2Proof.Machine
end

