-- ==== Sys2Proof/Laws/PerInstr.lean ====
section
/-! SUPPORT. The family `EncodedByTable`, one lemma per constructor of `Instr`. -/

namespace Sys2Proof

/-- The `mask` and `match` of a command's row (30_encoding.md R102, R104). -/
def tableRow : Instr → Word × Word
  | .nop => (0xFFFFFFFF, 0x00)
  | .errclr => (0xFFFFFFFF, 0x01)
  | .sreset => (0xFFFFFFFF, 0x02)
  | .brd => (0xFFFFFFFF, 0x03)
  | .vinit _ => (0xFFFFFCFF, 0x10)
  | .vsize _ => (0xFFFFFCFF, 0x11)
  | .vget _ => (0xFFFFFCFF, 0x12)
  | .vset _ => (0xFFFFFCFF, 0x13)
  | .vflip _ => (0xFFFFFCFF, 0x14)
  | .vappend _ => (0xFFFFFCFF, 0x15)
  | .vrdbits _ => (0xFFFFFCFF, 0x16)
  | .vxor _ _ => (0xFFFFF0FF, 0x17)
  | .vtobytes _ => (0xFFFFFCFF, 0x18)
  | .minit _ => (0xFFFFFCFF, 0x20)
  | .mdim _ => (0xFFFFFCFF, 0x21)
  | .mget _ => (0xFFFFFCFF, 0x22)
  | .mset _ => (0xFFFFFCFF, 0x23)
  | .mflip _ => (0xFFFFFCFF, 0x24)
  | .mfill _ => (0xFFFFFCFF, 0x25)
  | .mgetrow _ _ => (0xFFFFF0FF, 0x26)
  | .msetrow _ _ => (0xFFFFF0FF, 0x27)
  | .mrot180 _ => (0xFFFFFCFF, 0x28)
  | .mtop _ => (0xFFFFFCFF, 0x29)
  | .mbot _ => (0xFFFFFCFF, 0x2A)
  | .mrect _ => (0xFFFFFCFF, 0x2B)

/-- The word of a well-formed command selects its own row: `cw & mask = match` (30_encoding.md R102). -/
def Laws.EncodedByTable.Statement (i : Instr) : Prop :=
  i.WellFormed → encode i &&& (tableRow i).1 = (tableRow i).2

/-- The row test of one opcode with a slot in field `A`. -/
theorem masked_slotA {op : Nat} (h : ∀ a : Fin 4, commandWord op a 0 &&& 0xFFFFFCFF#32 = BitVec.ofNat 32 op)
    {a : Nat} (ha : SlotOk a) : commandWord op a 0 &&& 0xFFFFFCFF#32 = BitVec.ofNat 32 op := h ⟨a, ha⟩

/-- The row test of one opcode with slots in fields `A` and `B`. -/
theorem masked_slotAB {op : Nat} (h : ∀ a b : Fin 4, commandWord op a b &&& 0xFFFFF0FF#32 = BitVec.ofNat 32 op)
    {a b : Nat} (hab : SlotOk a ∧ SlotOk b) : commandWord op a b &&& 0xFFFFF0FF#32 = BitVec.ofNat 32 op :=
  h ⟨a, hab.1⟩ ⟨b, hab.2⟩

theorem Laws.EncodedByTable.nop : Laws.EncodedByTable.Statement .nop := by intro _; decide
theorem Laws.EncodedByTable.errclr : Laws.EncodedByTable.Statement .errclr := by intro _; decide
theorem Laws.EncodedByTable.sreset : Laws.EncodedByTable.Statement .sreset := by intro _; decide
theorem Laws.EncodedByTable.brd : Laws.EncodedByTable.Statement .brd := by intro _; decide
theorem Laws.EncodedByTable.vinit (a : Nat) : Laws.EncodedByTable.Statement (.vinit a) := masked_slotA (by decide)
theorem Laws.EncodedByTable.vsize (a : Nat) : Laws.EncodedByTable.Statement (.vsize a) := masked_slotA (by decide)
theorem Laws.EncodedByTable.vget (a : Nat) : Laws.EncodedByTable.Statement (.vget a) := masked_slotA (by decide)
theorem Laws.EncodedByTable.vset (a : Nat) : Laws.EncodedByTable.Statement (.vset a) := masked_slotA (by decide)
theorem Laws.EncodedByTable.vflip (a : Nat) : Laws.EncodedByTable.Statement (.vflip a) := masked_slotA (by decide)
theorem Laws.EncodedByTable.vappend (a : Nat) : Laws.EncodedByTable.Statement (.vappend a) := masked_slotA (by decide)
theorem Laws.EncodedByTable.vrdbits (a : Nat) : Laws.EncodedByTable.Statement (.vrdbits a) := masked_slotA (by decide)
theorem Laws.EncodedByTable.vxor (a b : Nat) : Laws.EncodedByTable.Statement (.vxor a b) := masked_slotAB (by decide)
theorem Laws.EncodedByTable.vtobytes (a : Nat) : Laws.EncodedByTable.Statement (.vtobytes a) := masked_slotA (by decide)
theorem Laws.EncodedByTable.minit (a : Nat) : Laws.EncodedByTable.Statement (.minit a) := masked_slotA (by decide)
theorem Laws.EncodedByTable.mdim (a : Nat) : Laws.EncodedByTable.Statement (.mdim a) := masked_slotA (by decide)
theorem Laws.EncodedByTable.mget (a : Nat) : Laws.EncodedByTable.Statement (.mget a) := masked_slotA (by decide)
theorem Laws.EncodedByTable.mset (a : Nat) : Laws.EncodedByTable.Statement (.mset a) := masked_slotA (by decide)
theorem Laws.EncodedByTable.mflip (a : Nat) : Laws.EncodedByTable.Statement (.mflip a) := masked_slotA (by decide)
theorem Laws.EncodedByTable.mfill (a : Nat) : Laws.EncodedByTable.Statement (.mfill a) := masked_slotA (by decide)
theorem Laws.EncodedByTable.mgetrow (a b : Nat) : Laws.EncodedByTable.Statement (.mgetrow a b) := masked_slotAB (by decide)
theorem Laws.EncodedByTable.msetrow (a b : Nat) : Laws.EncodedByTable.Statement (.msetrow a b) := masked_slotAB (by decide)
theorem Laws.EncodedByTable.mrot180 (a : Nat) : Laws.EncodedByTable.Statement (.mrot180 a) := masked_slotA (by decide)
theorem Laws.EncodedByTable.mtop (a : Nat) : Laws.EncodedByTable.Statement (.mtop a) := masked_slotA (by decide)
theorem Laws.EncodedByTable.mbot (a : Nat) : Laws.EncodedByTable.Statement (.mbot a) := masked_slotA (by decide)
theorem Laws.EncodedByTable.mrect (a : Nat) : Laws.EncodedByTable.Statement (.mrect a) := masked_slotA (by decide)

end Sys2Proof
end

