-- ==== Sys2Proof/Tests/Slice0.lean ====
section
/-! SUPPORT. Tests. Words and results are written from the spec's encodings and examples (95_test_vectors.md and the
*Example* line of each command's rule), never from the model's answers. -/

namespace Sys2Proof.Tests

open Sys2Proof Sys2Proof.Machine

/-! ### WellFormed refuses an ill-formed term of each check -/

theorem test_slotA_refused : ∀ i ∈ [Instr.vinit 4, .vsize 4, .vget 4, .vset 4, .vflip 4, .vappend 4, .vrdbits 4,
    .vxor 4 0, .vtobytes 4, .minit 4, .mdim 4, .mget 4, .mset 4, .mflip 4, .mfill 4, .mgetrow 4 0, .msetrow 4 0,
    .mrot180 4, .mtop 4, .mbot 4, .mrect 4], ¬ i.WellFormed := by simp [Instr.WellFormed]
theorem test_slotB_refused : ∀ i ∈ [Instr.vxor 0 4, .mgetrow 0 4, .msetrow 0 4], ¬ i.WellFormed := by simp [Instr.WellFormed]
theorem test_access_width_refused : ¬ (HostEvent.write 16 0x10 0#32).WellFormed := by decide
theorem test_access_alignment_refused : ¬ (HostEvent.R 0x22).WellFormed := by decide
theorem test_access_range_refused : ¬ (HostEvent.W 0x80 0#32).WellFormed := by decide
theorem test_access_last_accepted : (HostEvent.R 0x7C).WellFormed := by decide

/-! ### Decoding: words written out from the layout of 30_encoding.md R101 and the opcodes of R104 -/

theorem test_decode_control : decode 0x00000000#32 = .ok .nop ∧ decode 0x00000001#32 = .ok .errclr ∧
    decode 0x00000002#32 = .ok .sreset ∧ decode 0x00000003#32 = .ok .brd := by decide
theorem test_decode_vector : decode 0x00000110#32 = .ok (.vinit 1) ∧ decode 0x00000211#32 = .ok (.vsize 2) ∧
    decode 0x00000312#32 = .ok (.vget 3) ∧ decode 0x00000013#32 = .ok (.vset 0) ∧
    decode 0x00000114#32 = .ok (.vflip 1) ∧ decode 0x00000115#32 = .ok (.vappend 1) ∧
    decode 0x00000216#32 = .ok (.vrdbits 2) ∧ decode 0x00000417#32 = .ok (.vxor 0 1) ∧
    decode 0x00000318#32 = .ok (.vtobytes 3) := by decide
theorem test_decode_matrix : decode 0x00000020#32 = .ok (.minit 0) ∧ decode 0x00000321#32 = .ok (.mdim 3) ∧
    decode 0x00000122#32 = .ok (.mget 1) ∧ decode 0x00000223#32 = .ok (.mset 2) ∧
    decode 0x00000124#32 = .ok (.mflip 1) ∧ decode 0x00000325#32 = .ok (.mfill 3) ∧
    decode 0x00000D26#32 = .ok (.mgetrow 1 3) ∧ decode 0x00000E27#32 = .ok (.msetrow 2 3) ∧
    decode 0x00000128#32 = .ok (.mrot180 1) ∧ decode 0x00000229#32 = .ok (.mtop 2) ∧
    decode 0x0000032A#32 = .ok (.mbot 3) ∧ decode 0x0000012B#32 = .ok (.mrect 1) := by decide
theorem test_decode_illegal : decode 0x00000019#32 = .error .unknownOpcode ∧
    decode 0x80000010#32 = .error .reservedBits ∧ decode 0x00001000#32 = .error .reservedBits ∧
    decode 0x00000100#32 = .error .unusedSlot ∧ decode 0x00000410#32 = .error .unusedSlot := by decide
theorem test_table_word : decodeTableWord 32 0x00000417 = some (.vxor 0 1) ∧ decodeTableWord 32 0x19 = none := by decide
theorem test_first_step_runs_it : step (State.reset.withFetchWord 32 0x00000110) =
    exec (.vinit 1) { State.reset with cmd := 0x00000110#32 } := rfl

/-! ### A small state -/

/-- `v0`: 40 bits, bits 0 and 33 set. `v1`: the 8 bits of 0x0F, `v2`: empty, `v3`: `1000000000`. `m0`: 10 × 6 with the
block of `MFILL m, 2, 1, 4, 3`. `m1`: 40 × 3 with bit (33, 1). `m2` is unconfigured, `m3` is 5000 × 1. Byte 1 of the
buffer is 0x12. -/
def base : State :=
  { State.reset with
    vec := ⟨⟨40, [(0, 1#32), (1, 2#32)]⟩, ⟨8, [(0, 0xF0#32)]⟩, ⟨0, []⟩, ⟨10, [(0, 1#32)]⟩⟩
    mat := ⟨⟨10, 6, 1, [(1, 0x3C#32), (2, 0x3C#32), (3, 0x3C#32)]⟩, ⟨40, 3, 2, [(3, 2#32)]⟩, ⟨0, 0, 0, []⟩,
      ⟨5000, 1, 157, []⟩⟩
    bb := [(1, 0x12#8)] }

/-- `base` with operands. -/
def args (a b c d : Word) : State := { base with arg := ⟨a, b, c, d⟩ }

/-- `base` with host events. -/
def hosted (l : List HostEvent) : State := { base with events := l }

theorem base_inv : base.Inv := by decide
theorem args_inv (a b c d : Word) : (args a b c d).Inv := base_inv
theorem hosted_inv (l : List HostEvent) : (hosted l).Inv := base_inv

/-- The results of a command. -/
def resOf (i : Instr) (s : State) : Option (Quad Word) :=
  match exec i s with
  | .next t => some t.res
  | .fault _ => none
  | .refused _ => none

/-- `STATUS` after a command. -/
def statusOf (i : Instr) (s : State) : Option Word :=
  match exec i s with
  | .next t => some t.status
  | .fault _ => none
  | .refused _ => none

/-- A vector slot after a command. -/
def vecOf (v : Fin 4) (i : Instr) (s : State) : Option VecSlot :=
  match exec i s with
  | .next t => some (t.vec.get v)
  | .fault _ => none
  | .refused _ => none

/-- The storage of a matrix slot after a command. -/
def wordsOf (m : Fin 4) (i : Instr) (s : State) : Option WordMem :=
  match exec i s with
  | .next t => some (t.mat.get m).words
  | .fault _ => none
  | .refused _ => none

/-! ### One step of each command (expected values: the *Example* of its rule) -/

theorem test_nop_clears_lastErr : statusOf .nop (base.takeFault .bounds) = some 0x00000430#32 := by decide
theorem test_errclr_clears_status : statusOf .errclr (base.takeFault .bounds) = some 0#32 := by decide
theorem test_sreset_empties : vecOf 0 .sreset base = some ⟨0, []⟩ := by decide
theorem test_brd_reads : resOf .brd (args 1 0 0 0) = some ⟨0x12#32, 0#32, 0#32, 0#32⟩ := by decide
theorem test_brd_bounds : statusOf .brd (args 512 0 0 0) = some 0x00000433#32 := by decide
theorem test_vinit : resOf (.vinit 0) (args 40 0 0 0) = some ⟨0x28#32, 0#32, 0#32, 0#32⟩ := by decide
theorem test_vinit_zeroes : vecOf 0 (.vinit 0) (args 40 0 0 0) = some ⟨40, []⟩ := by decide
theorem test_vsize : resOf (.vsize 0) base = some ⟨0x28#32, 0#32, 0#32, 0#32⟩ := by decide
theorem test_vget : resOf (.vget 0) (args 33 0 0 0) = some ⟨1#32, 0#32, 0#32, 0#32⟩ := by decide
theorem test_vget_bounds : statusOf (.vget 0) (args 40 0 0 0) = some 0x00000433#32 := by decide
theorem test_vset : vecOf 0 (.vset 0) (args 32 0 0 0) = some ⟨40, [(0, 1#32), (1, 3#32)]⟩ := by decide
theorem test_vflip : vecOf 0 (.vflip 0) (args 33 0 0 0) = some ⟨40, [(0, 1#32)]⟩ := by decide
theorem test_vappend : vecOf 2 (.vappend 2) (args 0x1D 5 0 0) = some ⟨5, [(0, 0x17#32)]⟩ := by decide
theorem test_vappend_too_wide : statusOf (.vappend 2) (args 0 33 0 0) = some 0x00000111#32 := by decide
theorem test_vrdbits : resOf (.vrdbits 2) ((args 0 5 0 0).setVec 2 ⟨5, [(0, 0x17#32)]⟩) =
    some ⟨0x1D#32, 0#32, 0#32, 0#32⟩ := by decide
theorem test_vrdbits_middle : resOf (.vrdbits 2) ((args 1 3 0 0).setVec 2 ⟨5, [(0, 0x17#32)]⟩) =
    some ⟨6#32, 0#32, 0#32, 0#32⟩ := by decide
/-- `1100 1010` xor `0000 1111` is `1100 0101`, bit 0 first. -/
theorem test_vxor : vecOf 2 (.vxor 2 1) (base.setVec 2 ⟨8, [(0, 0x53#32)]⟩) = some ⟨8, [(0, 0xA3#32)]⟩ := by decide
theorem test_vxor_sizes_differ : statusOf (.vxor 0 1) base = some 0x00000222#32 := by decide
/-- 0xA5 and then 0x12345678, from bit 4: the bytes 51 23 45 67. -/
theorem test_vtobytes : (match exec (.vtobytes 2) ((args 4 16 4 0).setVec 2 ⟨40, [(0, 0x6A2C48A5#32), (1, 0x1E#32)]⟩) with
    | .next t => some t.bb
    | .fault _ => none
    | .refused _ => none) = some [(1, 0x12#8), (16, 0x51#8), (17, 0x23#8), (18, 0x45#8), (19, 0x67#8)] := by decide
theorem test_minit : resOf (.minit 0) (args 40 3 0 0) = some ⟨0x28#32, 3#32, 2#32, 0#32⟩ := by decide
theorem test_minit_capacity : statusOf (.minit 0) (args 33 4097 0 0) = some 0x00000844#32 := by decide
theorem test_mdim : resOf (.mdim 1) base = some ⟨0x28#32, 3#32, 2#32, 0#32⟩ := by decide
theorem test_mdim_unconfigured : resOf (.mdim 2) base = some ⟨0#32, 0#32, 0#32, 0#32⟩ := by decide
theorem test_mget : resOf (.mget 1) (args 33 1 0 0) = some ⟨1#32, 0#32, 0#32, 0#32⟩ := by decide
theorem test_mget_bounds : statusOf (.mget 1) (args 0 3 0 0) = some 0x00000433#32 := by decide
theorem test_mset : wordsOf 1 (.mset 1) (args 39 2 0 0) = some [(3, 2#32), (5, 0x80#32)] := by decide
theorem test_mflip : wordsOf 1 (.mflip 1) (args 33 1 0 0) = some [] := by decide
theorem test_mfill : wordsOf 0 (.mfill 0) ((args 2 1 4 3).setMat 0 ⟨10, 6, 1, []⟩) =
    some [(1, 0x3C#32), (2, 0x3C#32), (3, 0x3C#32)] := by decide
theorem test_mfill_does_not_fit : statusOf (.mfill 0) (args 8 0 3 1) = some 0x00000111#32 := by decide
theorem test_mgetrow : vecOf 2 (.mgetrow 0 2) ((args 1 0 0 0).setMat 0 ⟨10, 6, 1, [(1, 1#32)]⟩) =
    some ⟨10, [(0, 1#32)]⟩ := by decide
theorem test_mgetrow_capacity : statusOf (.mgetrow 3 2) base = some 0x00000844#32 := by decide
theorem test_msetrow : wordsOf 2 (.msetrow 2 3) ((args 1 0 0 0).setMat 2 ⟨10, 2, 1, []⟩) = some [(1, 1#32)] := by decide
theorem test_msetrow_sizes_differ : statusOf (.msetrow 1 3) base = some 0x00000222#32 := by decide
/-- The example of R168: bit (9, 4) goes to (0, 1), the block to columns 4..7 of rows 2..4. -/
theorem test_mrot180 : wordsOf 0 (.mrot180 0)
    (base.setMat 0 ⟨10, 6, 1, [(1, 0x3C#32), (2, 0x3C#32), (3, 0x3C#32), (4, 0x200#32)]⟩) =
    some [(1, 1#32), (2, 0xF0#32), (3, 0xF0#32), (4, 0xF0#32)] := by decide
theorem test_mtop : resOf (.mtop 0) base = some ⟨1#32, 2#32, 1#32, 0#32⟩ := by decide
theorem test_mbot : resOf (.mbot 0) base = some ⟨1#32, 5#32, 3#32, 0#32⟩ := by decide
theorem test_mrect : resOf (.mrect 0) base = some ⟨2#32, 1#32, 4#32, 3#32⟩ := by decide
theorem test_mrect_unconfigured : statusOf (.mrect 2) base = some 0x00000111#32 := by decide

/-! ### Witnesses: concrete states and operands that meet the hypotheses of each obligation, clause by clause -/

theorem witness_DecodeOfEncode : (Instr.mgetrow 3 3).WellFormed ∧ (Instr.vinit 0).WellFormed := by decide
theorem witness_EncodeOfDecode : decode 0x00000F27#32 = .ok (.msetrow 3 3) := by decide
theorem witness_IllegalCommandWords : (∃ e, decode 0x2C#32 = .error e) ∧ ∃ e, decode 0x1003#32 = .error e :=
  ⟨⟨_, rfl⟩, _, rfl⟩
theorem witness_SlotBeyondThreeRefused : ¬ (Instr.vinit 4).WellFormed ∧ ¬ (Instr.vxor 3 4).WellFormed := by decide
theorem witness_StepRunsDecodedCommand : (hosted [.W 0x20 0x115#32]).inReset = false ∧
    (hosted [.W 0x20 0x115#32]).events = .W 0x20 0x115#32 :: [] ∧ decode 0x115#32 = .ok (.vappend 1) :=
  ⟨rfl, rfl, by decide⟩
/-- The first and the last location of the block, and one of each clause. -/
theorem witness_RegisterReads : ∀ o ∈ [0x00, 0x04, 0x08, 0x0C, 0x10, 0x1C, 0x20, 0x24, 0x28, 0x34, 0x38, 0x3C, 0x40, 0x4C,
    0x50, 0x7C], (hosted [.R o]).Inv ∧ (hosted [.R o]).inReset = false ∧ AccessOk 32 o ∧
    (hosted [.R o]).events = .R o :: [] := by
  intro o ho
  refine ⟨hosted_inv _, rfl, ?_, rfl⟩
  revert o; decide
theorem witness_RegisterWrites : ∀ o ∈ [0x00, 0x0C, 0x10, 0x1C, 0x24, 0x7C], (hosted [.W o 7#32]).inReset = false ∧
    AccessOk 32 o ∧ (hosted [.W o 7#32]).events = .W o 7#32 :: [] := by decide
theorem witness_UndefinedAccessRefused : (31 ≠ 32 ∨ 0x10 % 4 ≠ 0 ∨ 0x7C < 0x10) ∧ (32 ≠ 32 ∨ 0x7B % 4 ≠ 0 ∨ 0x7C < 0x7B) ∧
    (32 ≠ 32 ∨ 0x80 % 4 ≠ 0 ∨ 0x7C < 0x80) ∧ (hosted [.write 31 0x10 0#32]).events = .write 31 0x10 0#32 :: [] ∧
    (hosted [.read 32 0x80]).events = .read 32 0x80 :: [] := by decide
theorem witness_ResetLine : (hosted [.reset true]).events = .reset true :: [] ∧
    ({ hosted [.R 0x7C] with inReset := true } : State).inReset = true ∧ AccessOk 32 0x7C ∧
    ({ hosted [.R 0x7C] with inReset := true } : State).events = .R 0x7C :: [] ∧
    ({ hosted [.reset false] with inReset := true } : State).events = .reset false :: [] ∧ base.events = [] := by decide
theorem witness_ExpandedLineRunsCommand : (Instr.vappend 1).WellFormed ∧
    [0x1D#32, 5#32].length = (operandRegs (.vappend 1)).length ∧
    (hosted [.W 0x10 0x1D#32, .W 0x14 5#32, .W 0x20 0x115#32]).inReset = false ∧
    (hosted [.W 0x10 0x1D#32, .W 0x14 5#32, .W 0x20 0x115#32]).events =
      expandCommand (.vappend 1) [0x1D#32, 5#32] ++ [] := by decide
theorem witness_StepKeepsWellFormed : (hosted [.W 0x20 0x28#32]).Inv ∧ ∃ t, step (hosted [.W 0x20 0x28#32]) = .next t :=
  ⟨hosted_inv _, _, rfl⟩
theorem witness_StepNeverStops : (hosted [.R 0x7C]).Inv ∧ ∀ e ∈ (hosted [.R 0x7C]).events.head?, e.WellFormed :=
  ⟨hosted_inv _, by simp [hosted, HostEvent.WellFormed, AccessOk]⟩
theorem witness_AllWaitingEventsComplete : (hosted [.W 0x20 0x28#32, .reset true, .R 0x24, .reset false]).Inv ∧
    ∀ e ∈ (hosted [.W 0x20 0x28#32, .reset true, .R 0x24, .reset false]).events, e.WellFormed :=
  ⟨hosted_inv _, by simp [hosted, HostEvent.WellFormed, AccessOk]⟩
theorem witness_FaultIsFirstFailingCheck : (Instr.mfill 2).WellFormed ∧ (args 0 0 0 0).Inv ∧
    faultOf (.mfill 2) (args 0 0 0 0) = some .invalidArgument ∧ faultOf (.mfill 0) (args 9 5 1 1) = none :=
  ⟨by decide, args_inv _ _ _ _, by decide, by decide⟩
theorem witness_CommandsKeepHostState : (∃ t, exec (.vinit 3) (args 4096 0 0 0) = .next t) ∧
    ∃ t, exec .sreset base = .next t := ⟨⟨_, rfl⟩, _, rfl⟩
theorem witness_CommandsKeepOtherObjects : (∃ t, exec (.msetrow 0 3) (args 5 0 0 0) = .next t) ∧
    writesVec (.msetrow 0 3) 3 = false ∧ writesMat (.msetrow 0 3) 1 = false ∧ writesBuffer (.msetrow 0 3) = false :=
  ⟨⟨_, rfl⟩, by decide, by decide, by decide⟩
theorem witness_UnlistedOperandsDoNotMatter : ∃ t, exec (.vset 0) (args 39 1 2 3) = .next t ∧ lastErr t.status = 0#4 ∧
    ∀ k ∈ operandRegs (.vset 0), (⟨39#32, 9#32, 9#32, 9#32⟩ : Quad Word).get k = (args 39 1 2 3).arg.get k :=
  ⟨_, rfl, by decide, by decide⟩
theorem witness_FaultRecordIsSticky : (base.takeFault .bounds).Inv ∧ firstErr (base.takeFault .bounds).status ≠ 0#4 ∧
    ∃ t, step (base.takeFault .bounds) = .next t := ⟨by decide, by decide, _, rfl⟩
theorem witness_RepeatedCommandsChangeNothing : (args 40 0 0 0).Inv ∧ (∃ t, exec .errclr (args 40 0 0 0) = .next t) ∧
    Instr.errclr ∈ [Instr.nop, .errclr, .sreset] ∧ (∃ t, exec (.vset 0) (args 40 0 0 0) = .next t) ∧
    Instr.vset 0 ∈ [Instr.vinit 0, .vsize 0, .vget 0, .vset 0, .vrdbits 0, .vtobytes 0, .minit 0, .mdim 0, .mget 0,
      .mset 0, .mfill 0, .mgetrow 0 0, .msetrow 0 0, .mtop 0, .mbot 0, .mrect 0] :=
  ⟨args_inv _ _ _ _, ⟨_, rfl⟩, by decide, ⟨_, rfl⟩, by decide⟩
theorem witness_ErrclrRule : base.Inv := base_inv
theorem witness_BrdRule : (args 512 0 0 0).params.bufBytes ≤ (args 512 0 0 0).argNat 0 ∧
    (args 511 0 0 0).argNat 0 < (args 511 0 0 0).params.bufBytes ∧
    ByteMem.byteAt? (args 1 0 0 0).bb ((args 1 0 0 0).argNat 0) = some 0x12#8 := by decide
theorem witness_VinitRule : (args 0x80000000 0 0 0).Inv ∧ 2 ^ 31 ≤ (args 0x80000000 0 0 0).argNat 0 ∧
    (args 4097 0 0 0).argNat 0 < 2 ^ 31 ∧ (args 4097 0 0 0).params.vcapBits < (args 4097 0 0 0).argNat 0 ∧
    (args 4096 0 0 0).argNat 0 ≤ (args 4096 0 0 0).params.vcapBits := ⟨args_inv _ _ _ _, by decide⟩
theorem witness_VsizeRule : base.Inv := base_inv
/-- Of `VGET`, `VSET`, `VFLIP`: the first index outside and the last inside. -/
theorem witness_BitIndexRules : (args 40 0 0 0).Inv ∧ ((args 40 0 0 0).vec.get 0).size ≤ (args 40 0 0 0).argNat 0 ∧
    (args 39 0 0 0).argNat 0 < ((args 39 0 0 0).vec.get 0).size := ⟨args_inv _ _ _ _, by decide⟩
/-- `VAPPEND`: `n = 33`; a vector of 4065 bits with `n = 32`; one of 4064 with `n = 32`. -/
theorem witness_VappendRule : (args 0 33 0 0).Inv ∧ 32 < (args 0 33 0 0).argNat 1 ∧
    ((args 0 32 0 0).setVec 0 ⟨4065, []⟩).Inv ∧ (args 0 32 0 0).argNat 1 ≤ 32 ∧
    (args 0 32 0 0).params.vcapBits < (((args 0 32 0 0).setVec 0 ⟨4065, []⟩).vec.get 0).size + (args 0 32 0 0).argNat 1 ∧
    ((args 0 32 0 0).setVec 0 ⟨4064, []⟩).Inv ∧
    (((args 0 32 0 0).setVec 0 ⟨4064, []⟩).vec.get 0).size + (args 0 32 0 0).argNat 1 ≤ (args 0 32 0 0).params.vcapBits :=
  ⟨args_inv _ _ _ _, by decide, by decide, by decide, by decide, by decide, by decide⟩
theorem witness_VrdbitsRule : (args 0 33 0 0).Inv ∧ 32 < (args 0 33 0 0).argNat 1 ∧ (args 9 32 0 0).argNat 1 ≤ 32 ∧
    ((args 9 32 0 0).vec.get 0).size < (args 9 32 0 0).argNat 0 + (args 9 32 0 0).argNat 1 ∧
    (args 8 32 0 0).argNat 0 + (args 8 32 0 0).argNat 1 ≤ ((args 8 32 0 0).vec.get 0).size :=
  ⟨args_inv _ _ _ _, by decide⟩
theorem witness_VxorRule : base.Inv ∧ (base.vec.get 0).size ≠ (base.vec.get 1).size ∧
    (base.setVec 2 ⟨8, [(0, 0x53#32)]⟩).Inv ∧
    ((base.setVec 2 ⟨8, [(0, 0x53#32)]⟩).vec.get 2).size = ((base.setVec 2 ⟨8, [(0, 0x53#32)]⟩).vec.get 1).size :=
  ⟨base_inv, by decide, by decide, by decide⟩
theorem witness_VtobytesRule : (args 1 0 5 0).Inv ∧
    ((args 1 0 5 0).vec.get 0).size < (args 1 0 5 0).argNat 0 + 8 * (args 1 0 5 0).argNat 2 ∧
    (args 0 508 5 0).argNat 0 + 8 * (args 0 508 5 0).argNat 2 ≤ ((args 0 508 5 0).vec.get 0).size ∧
    (args 0 508 5 0).params.bufBytes < (args 0 508 5 0).argNat 1 + (args 0 508 5 0).argNat 2 ∧
    (args 0 507 5 0).argNat 0 + 8 * (args 0 507 5 0).argNat 2 ≤ ((args 0 507 5 0).vec.get 0).size ∧
    (args 0 507 5 0).argNat 1 + (args 0 507 5 0).argNat 2 ≤ (args 0 507 5 0).params.bufBytes :=
  ⟨args_inv _ _ _ _, by decide⟩
theorem witness_MinitRule : (args 0 1 0 0).Inv ∧ (args 0 1 0 0).argNat 0 = 0 ∧ (args 1 0 0 0).argNat 1 = 0 ∧
    2 ^ 31 ≤ (args 0x80000000 1 0 0).argNat 0 ∧ 2 ^ 31 ≤ (args 1 0x80000000 0 0).argNat 1 ∧
    (1 ≤ (args 33 4097 0 0).argNat 0 ∧ 1 ≤ (args 33 4097 0 0).argNat 1 ∧ (args 33 4097 0 0).argNat 0 < 2 ^ 31 ∧
      (args 33 4097 0 0).argNat 1 < 2 ^ 31 ∧
      (args 33 4097 0 0).params.mcapWords < ((args 33 4097 0 0).argNat 0 + 31) / 32 * (args 33 4097 0 0).argNat 1) ∧
    (1 ≤ (args 33 4096 0 0).argNat 0 ∧ 1 ≤ (args 33 4096 0 0).argNat 1 ∧ (args 33 4096 0 0).argNat 0 < 2 ^ 31 ∧
      (args 33 4096 0 0).argNat 1 < 2 ^ 31 ∧
      ((args 33 4096 0 0).argNat 0 + 31) / 32 * (args 33 4096 0 0).argNat 1 ≤ (args 33 4096 0 0).params.mcapWords) :=
  ⟨args_inv _ _ _ _, by decide⟩
theorem witness_MdimRule : base.Inv := base_inv
/-- Of `MGET`, `MSET`, `MFLIP`: an unconfigured slot, the first column and the first row outside, the last bit. -/
theorem witness_BitCoordinateRules : (args 39 2 0 0).Inv ∧ ((args 39 2 0 0).mat.get 2).width = 0 ∧
    ((args 40 0 0 0).mat.get 1).width ≠ 0 ∧ ((args 40 0 0 0).mat.get 1).width ≤ (args 40 0 0 0).argNat 0 ∧
    ((args 0 3 0 0).mat.get 1).height ≤ (args 0 3 0 0).argNat 1 ∧
    (args 39 2 0 0).argNat 0 < ((args 39 2 0 0).mat.get 1).width ∧
    (args 39 2 0 0).argNat 1 < ((args 39 2 0 0).mat.get 1).height := ⟨args_inv _ _ _ _, by decide⟩
theorem witness_MfillRule : (args 0 0 10 6).Inv ∧ ((args 0 0 10 6).mat.get 2).width = 0 ∧ (args 0 0 0 6).argNat 2 = 0 ∧
    (args 0 0 10 0).argNat 3 = 0 ∧ 2 ^ 31 ≤ (args 0 0 0x80000000 1).argNat 2 ∧ 2 ^ 31 ≤ (args 0 0 1 0x80000000).argNat 3 ∧
    ((args 1 0 10 6).mat.get 0).width < (args 1 0 10 6).argNat 0 + (args 1 0 10 6).argNat 2 ∧
    ((args 0 1 10 6).mat.get 0).height < (args 0 1 10 6).argNat 1 + (args 0 1 10 6).argNat 3 ∧
    (1 ≤ (args 0 0 10 6).argNat 2 ∧ 1 ≤ (args 0 0 10 6).argNat 3 ∧
      (args 0 0 10 6).argNat 0 + (args 0 0 10 6).argNat 2 ≤ ((args 0 0 10 6).mat.get 0).width ∧
      (args 0 0 10 6).argNat 1 + (args 0 0 10 6).argNat 3 ≤ ((args 0 0 10 6).mat.get 0).height) :=
  ⟨args_inv _ _ _ _, by decide⟩
theorem witness_MgetrowRule : (args 0 0 0 0).Inv ∧ ((args 0 0 0 0).mat.get 2).width = 0 ∧
    (((args 6 0 0 0).mat.get 0).width ≠ 0 ∧ ((args 6 0 0 0).mat.get 0).height ≤ (args 6 0 0 0).argNat 0) ∧
    ((args 0 0 0 0).argNat 0 < ((args 0 0 0 0).mat.get 3).height ∧
      (args 0 0 0 0).params.vcapBits < ((args 0 0 0 0).mat.get 3).width) ∧
    ((args 5 0 0 0).argNat 0 < ((args 5 0 0 0).mat.get 0).height ∧
      ((args 5 0 0 0).mat.get 0).width ≤ (args 5 0 0 0).params.vcapBits) := ⟨args_inv _ _ _ _, by decide⟩
theorem witness_MsetrowRule : (args 5 0 0 0).Inv ∧ ((args 5 0 0 0).mat.get 2).width = 0 ∧
    (((args 6 0 0 0).mat.get 0).width ≠ 0 ∧ ((args 6 0 0 0).mat.get 0).height ≤ (args 6 0 0 0).argNat 0) ∧
    ((args 5 0 0 0).argNat 0 < ((args 5 0 0 0).mat.get 0).height ∧
      ((args 5 0 0 0).vec.get 1).size ≠ ((args 5 0 0 0).mat.get 0).width) ∧
    ((args 5 0 0 0).argNat 0 < ((args 5 0 0 0).mat.get 0).height ∧
      ((args 5 0 0 0).vec.get 3).size = ((args 5 0 0 0).mat.get 0).width) := ⟨args_inv _ _ _ _, by decide⟩
theorem witness_Mrot180Rule : base.Inv ∧ (base.mat.get 2).width = 0 ∧ (base.mat.get 0).width ≠ 0 :=
  ⟨base_inv, by decide⟩
/-- Of `MTOP`, `MBOT` and `MRECT`: an unconfigured slot and a matrix of zeros (one bit). -/
theorem witness_EmptyQueryRules : (base.setMat 2 ⟨1, 1, 1, []⟩).Inv ∧
    (base.mat.get 2).width = 0 ∧ ((base.setMat 2 ⟨1, 1, 1, []⟩).mat.get 2).width ≠ 0 ∧
    ∀ x < ((base.setMat 2 ⟨1, 1, 1, []⟩).mat.get 2).width, ∀ y < ((base.setMat 2 ⟨1, 1, 1, []⟩).mat.get 2).height,
      ((base.setMat 2 ⟨1, 1, 1, []⟩).mat.get 2).mbit x y = false := by decide
/-- The block of columns 2..5, rows 1..3 of `m0`. -/
theorem witness_MtopRule : base.Inv ∧ 2 < (base.mat.get 0).width ∧ 1 < (base.mat.get 0).height ∧
    (base.mat.get 0).mbit 2 1 = true ∧ (∀ x < (base.mat.get 0).width, ∀ y < 1, (base.mat.get 0).mbit x y = false) ∧
    (∀ x < 2, (base.mat.get 0).mbit x 1 = false) := ⟨base_inv, by decide⟩
theorem witness_MbotRule : base.Inv ∧ 5 < (base.mat.get 0).width ∧ 3 < (base.mat.get 0).height ∧
    (base.mat.get 0).mbit 5 3 = true ∧
    (∀ x < (base.mat.get 0).width, ∀ y < (base.mat.get 0).height, 3 < y → (base.mat.get 0).mbit x y = false) ∧
    (∀ x < (base.mat.get 0).width, 5 < x → (base.mat.get 0).mbit x 3 = false) := ⟨base_inv, by decide⟩
theorem witness_MrectRule : base.Inv ∧
    (∀ x < (base.mat.get 0).width, ∀ y < (base.mat.get 0).height, (base.mat.get 0).mbit x y = true →
      2 ≤ x ∧ x ≤ 5 ∧ 1 ≤ y ∧ y ≤ 3) ∧
    (∃ y < (base.mat.get 0).height, 2 < (base.mat.get 0).width ∧ (base.mat.get 0).mbit 2 y = true) ∧
    (∃ y < (base.mat.get 0).height, 5 < (base.mat.get 0).width ∧ (base.mat.get 0).mbit 5 y = true) ∧
    (∃ x < (base.mat.get 0).width, 1 < (base.mat.get 0).height ∧ (base.mat.get 0).mbit x 1 = true) ∧
    (∃ x < (base.mat.get 0).width, 3 < (base.mat.get 0).height ∧ (base.mat.get 0).mbit x 3 = true) :=
  ⟨base_inv, by decide, by decide, by decide, by decide, by decide⟩
theorem witness_AppendThenReadBack : (args 0xA5 32 0 0).Inv ∧ (args 0xA5 32 0 0).argNat 1 ≤ 32 ∧
    ((args 0xA5 32 0 0).vec.get 0).size + (args 0xA5 32 0 0).argNat 1 ≤ (args 0xA5 32 0 0).params.vcapBits :=
  ⟨args_inv _ _ _ _, by decide⟩
theorem witness_RotateTwiceRestores : base.Inv ∧ (base.mat.get 0).width ≠ 0 := ⟨base_inv, by decide⟩
/-- The same slot, and two slots of the same size. -/
theorem witness_XorTwiceRestores : (base.setVec 2 ⟨8, [(0, 0x53#32)]⟩).Inv ∧
    ((base.setVec 2 ⟨8, [(0, 0x53#32)]⟩).vec.get 2).size = ((base.setVec 2 ⟨8, [(0, 0x53#32)]⟩).vec.get 1).size ∧
    (2 : Fin 4) ≠ 1 ∧ (base.vec.get 0).size = (base.vec.get 0).size := by decide
theorem witness_FlipTwiceRestores : (args 39 2 0 0).Inv ∧ (args 39 2 0 0).argNat 0 < ((args 39 2 0 0).vec.get 0).size ∧
    (args 39 2 0 0).argNat 0 < ((args 39 2 0 0).mat.get 1).width ∧
    (args 39 2 0 0).argNat 1 < ((args 39 2 0 0).mat.get 1).height := ⟨args_inv _ _ _ _, by decide⟩
theorem witness_BottomIsTopOfRotation : base.Inv ∧ (base.mat.get 0).width ≠ 0 := ⟨base_inv, by decide⟩
theorem witness_AppendedByteIsReadFromBuffer : base.Inv ∧ (base.vec.get 0).size + 8 ≤ base.params.vcapBits ∧
    511 < base.params.bufBytes := ⟨base_inv, by decide⟩
theorem witness_RowCopyArrives : ((args 1 0 0 0).setMat 2 ⟨10, 2, 1, []⟩).Inv ∧
    ((args 1 0 0 0).setMat 2 ⟨10, 2, 1, []⟩).argNat 0 < (((args 1 0 0 0).setMat 2 ⟨10, 2, 1, []⟩).mat.get 0).height ∧
    1 < (((args 1 0 0 0).setMat 2 ⟨10, 2, 1, []⟩).mat.get 2).height ∧
    (((args 1 0 0 0).setMat 2 ⟨10, 2, 1, []⟩).mat.get 2).width = (((args 1 0 0 0).setMat 2 ⟨10, 2, 1, []⟩).mat.get 0).width ∧
    (((args 1 0 0 0).setMat 2 ⟨10, 2, 1, []⟩).mat.get 0).width ≤ ((args 1 0 0 0).setMat 2 ⟨10, 2, 1, []⟩).params.vcapBits := by
  decide

end Sys2Proof.Tests
end

section
/-! PROOFS. Which bits the storage of a slot holds (10_state.md R36, R37, R42): a well-formed slot said bit by bit, and the
storage operations of the commands, each of which keeps a slot well formed. -/

namespace Sys2Proof.Machine

/-! ### Set bits of word storage -/

/-- Every set bit of `m`, bit `k` of word `j`, is one that `P` allows. -/
def WordMem.SetOnly (m : WordMem) (P : Nat → Nat → Prop) : Prop :=
  ∀ j k, k < 32 → m.bit j k = true → P j k

theorem WordMem.setOnly_nil (P : Nat → Nat → Prop) : WordMem.SetOnly [] P := by
  intro j k _ hbit
  simp [WordMem.bit] at hbit

theorem WordMem.SetOnly.mono {m : WordMem} {P Q : Nat → Nat → Prop} (h : m.SetOnly P) (hPQ : ∀ j k, P j k → Q j k) :
    m.SetOnly Q :=
  fun j k hk hbit => hPQ j k (h j k hk hbit)

theorem WordMem.SetOnly.putBit {m : WordMem} {P : Nat → Nat → Prop} (h : m.SetOnly P) {j k : Nat} (hk : k < 32)
    (hP : P j k) (b : Bool) : (m.putBit j k b).SetOnly P := by
  intro i l hl hbit
  rw [WordMem.bit_putBit _ _ _ _ _ _ hk] at hbit
  split at hbit
  · next e => rw [e.1, e.2]; exact hP
  · exact h i l hl hbit

theorem WordMem.SetOnly.writeRun {m : WordMem} {P : Nat → Nat → Prop} (h : m.SetOnly P) {base n : Nat} {f : Nat → Word}
    (hf : ∀ j < n, ∀ k < 32, (f j).getLsbD k = true → P (base + j) k) : (m.writeRun base f n).SetOnly P := by
  intro i k hk hbit
  simp only [WordMem.bit, WordMem.read_writeRun] at hbit
  split at hbit
  · next e =>
    have hP := hf (i - base) (by omega) k hk hbit
    rwa [Nat.add_sub_cancel' e.1] at hP
  · exact h i k hk hbit

/-- A listed word of canonical storage has a set bit. -/
theorem WordMem.exists_bit_of_mem {m : WordMem} (h : m.wf) {c : Nat × Word} (hc : c ∈ m) :
    ∃ k < 32, m.bit c.1 k = true := by
  by_contra hnone
  refine h.2 c hc (BitVec.eq_of_getLsbD_eq fun k hk => ?_)
  have hread : m.read c.1 = c.2 := WordMem.read_eq_of_mem h hc
  have hbit : m.bit c.1 k ≠ true := fun hb => hnone ⟨k, hk, hb⟩
  simpa [WordMem.bit, hread, unlistedWord] using hbit

/-- The set bits of canonical storage are the set bits of its cells. -/
theorem WordMem.setOnly_iff {m : WordMem} (h : m.wf) {P : Nat → Nat → Prop} :
    m.SetOnly P ↔ ∀ c ∈ m, ∀ k < 32, c.2.getLsbD k = true → P c.1 k := by
  constructor
  · intro hset c hc k hk hbit
    refine hset c.1 k hk ?_
    rwa [WordMem.bit, WordMem.read_eq_of_mem h hc]
  · intro hcells j k hk hbit
    have hne : m.read j ≠ unlistedWord := fun e => by simp [WordMem.bit, e, unlistedWord] at hbit
    exact hcells _ (WordMem.mem_of_read_ne hne) k hk hbit

/-! ### Vector slots -/

/-- Bit `k` of word `j` is a logical bit of a vector of `size` bits (20_memory.md R62). -/
abbrev VecSlot.Inside (size j k : Nat) : Prop := 32 * j + k < size

/-- A vector slot is well formed when its size fits, its storage is canonical and its set bits are logical bits. -/
theorem VecSlot.ok_iff {p : Params} {d : VecSlot} :
    d.Ok p ↔ d.size ≤ p.vcapBits ∧ d.words.wf ∧ d.words.SetOnly (VecSlot.Inside d.size) :=
  and_congr_right fun _ => and_congr_right fun hwf => (WordMem.setOnly_iff hwf (P := VecSlot.Inside d.size)).symm

theorem VecSlot.ok_zeros {p : Params} {size : Nat} (h : size ≤ p.vcapBits) : VecSlot.Ok p { size := size, words := [] } :=
  VecSlot.ok_iff.2 ⟨h, WordMem.wf_nil, WordMem.setOnly_nil _⟩

theorem VecSlot.setOnly_vput {d : VecSlot} {size i : Nat} (h : d.words.SetOnly (VecSlot.Inside size)) (hi : i < size)
    (b : Bool) : (d.vput i b).words.SetOnly (VecSlot.Inside size) :=
  h.putBit (Nat.mod_lt _ (by decide)) (by simp only [VecSlot.Inside]; omega) b

theorem VecSlot.setOnly_vputRun {d : VecSlot} {size start : Nat} (f : Nat → Bool) {n : Nat}
    (h : d.words.SetOnly (VecSlot.Inside size)) (hn : start + n ≤ size) :
    (d.vputRun start f n).words.SetOnly (VecSlot.Inside size) := by
  induction n with
  | zero => exact h
  | succ n ih => exact VecSlot.setOnly_vput (ih (by omega)) (by omega) _

/-- `VSET` and `VFLIP` write a logical bit (R133, R134). -/
theorem VecSlot.Ok.vput {p : Params} {d : VecSlot} (h : d.Ok p) {i : Nat} (hi : i < d.size) (b : Bool) :
    (d.vput i b).Ok p := by
  obtain ⟨hsize, hwf, hset⟩ := VecSlot.ok_iff.1 h
  exact VecSlot.ok_iff.2 ⟨hsize, VecSlot.wf_vput hwf i b, VecSlot.setOnly_vput hset hi b⟩

/-- `VAPPEND` writes the bits by which the vector grows (R135). -/
theorem VecSlot.Ok.append {p : Params} {d : VecSlot} (h : d.Ok p) (f : Nat → Bool) {n : Nat}
    (hn : d.size + n ≤ p.vcapBits) : VecSlot.Ok p { d.vputRun d.size f n with size := d.size + n } := by
  obtain ⟨_, hwf, hset⟩ := VecSlot.ok_iff.1 h
  have hgrown : d.words.SetOnly (VecSlot.Inside (d.size + n)) :=
    hset.mono fun j k hjk => by simp only [VecSlot.Inside] at hjk ⊢; omega
  exact VecSlot.ok_iff.2 ⟨hn, VecSlot.wf_vputRun hwf _ _ _, VecSlot.setOnly_vputRun f hgrown le_rfl⟩

/-- `VXOR` sets only bits set in one of two vectors of one size (R137). -/
theorem VecSlot.Ok.xor {p : Params} {d c : VecSlot} (hd : d.Ok p) (hc : c.Ok p) (hsize : d.size = c.size) (n : Nat) :
    VecSlot.Ok p { d with words := d.words.writeRun 0 (fun j => d.words.read j ^^^ c.words.read j) n } := by
  obtain ⟨hcap, hwf, hset⟩ := VecSlot.ok_iff.1 hd
  obtain ⟨_, _, hset'⟩ := VecSlot.ok_iff.1 hc
  refine VecSlot.ok_iff.2 ⟨hcap, WordMem.wf_writeRun hwf _ _ _, hset.writeRun fun j _ k hk hbit => ?_⟩
  rw [Nat.zero_add]
  by_cases hb : d.words.bit j k = true
  · exact hset j k hk hb
  · have hb' : c.words.bit j k = true := by
      simp only [WordMem.bit] at hb ⊢
      simpa [hb] using hbit
    simpa only [VecSlot.Inside, hsize] using hset' j k hk hb'

/-! ### Matrix slots -/

/-- Bit `k` of word `j` is a logical bit of the matrix (20_memory.md R65). -/
abbrev MatSlot.Inside (d : MatSlot) (j k : Nat) : Prop := j < d.stride * d.height ∧ 32 * (j % d.stride) + k < d.width

/-- A matrix slot is well formed when its dimensions are, its storage is canonical and its set bits are logical bits. -/
theorem MatSlot.ok_iff {p : Params} {d : MatSlot} :
    d.Ok p ↔ d.DimsOk p ∧ d.words.wf ∧ d.words.SetOnly d.Inside := by
  refine and_congr_right fun _ => and_congr_right fun hwf => ?_
  rw [WordMem.setOnly_iff hwf]
  constructor
  · exact fun h c hc k hk hbit => ⟨(h c hc).1, (h c hc).2 k hk hbit⟩
  · intro h c hc
    obtain ⟨k, hk, hbit⟩ := WordMem.exists_bit_of_mem hwf hc
    rw [WordMem.bit, WordMem.read_eq_of_mem hwf hc] at hbit
    exact ⟨(h c hc k hk hbit).1, fun l hl hb => (h c hc l hl hb).2⟩

theorem MatSlot.DimsOk.stride_eq {p : Params} {d : MatSlot} (h : d.DimsOk p) : d.stride = ceilDiv32 d.width := by
  rcases h with ⟨hw, _, hs⟩ | ⟨_, _, _, _, hs, _⟩
  · rw [hs, hw]; rfl
  · exact hs

/-- Word `j` of row `y` is a live word. -/
theorem rowWord_lt {stride height y j : Nat} (hy : y < height) (hj : j < stride) : y * stride + j < stride * height :=
  calc y * stride + j < (y + 1) * stride := by rw [Nat.add_mul, Nat.one_mul]; omega
    _ ≤ height * stride := Nat.mul_le_mul_right _ hy
    _ = stride * height := Nat.mul_comm _ _

/-- Word `j` of a row stands `j` words after the row's first. -/
theorem rowWord_mod {stride j : Nat} (y : Nat) (hj : j < stride) : (y * stride + j) % stride = j := by
  rw [Nat.mul_comm, Nat.mul_add_mod, Nat.mod_eq_of_lt hj]

/-- A bit of a row within the width is a logical bit. -/
theorem MatSlot.inside_row {d : MatSlot} {y j k : Nat} (hy : y < d.height) (hj : j < d.stride)
    (hk : 32 * j + k < d.width) : d.Inside (y * d.stride + j) k :=
  ⟨rowWord_lt hy hj, by rwa [rowWord_mod y hj]⟩

/-- The unconfigured slot (R37). -/
theorem MatSlot.ok_unconfigured (p : Params) : MatSlot.unconfigured.Ok p :=
  MatSlot.ok_iff.2 ⟨.inl ⟨rfl, rfl, rfl⟩, WordMem.wf_nil, WordMem.setOnly_nil _⟩

/-- `MINIT` configures a slot whose words all read 0 (R160). -/
theorem MatSlot.ok_zeros {p : Params} {width height : Nat} (hw : 1 ≤ width ∧ width < 2 ^ 31)
    (hh : 1 ≤ height ∧ height < 2 ^ 31) (hcap : ceilDiv32 width * height ≤ p.mcapWords) :
    MatSlot.Ok p { width := width, height := height, stride := ceilDiv32 width, words := [] } :=
  MatSlot.ok_iff.2 ⟨.inr ⟨hw.1, hw.2, hh.1, hh.2, rfl, hcap⟩, WordMem.wf_nil, WordMem.setOnly_nil _⟩

/-- `MSET` and `MFLIP` write a logical bit (R163, R164). -/
theorem MatSlot.Ok.mput {p : Params} {d : MatSlot} (h : d.Ok p) {x y : Nat} (hx : x < d.width) (hy : y < d.height)
    (b : Bool) : (d.mput x y b).Ok p := by
  obtain ⟨hdims, hwf, hset⟩ := MatSlot.ok_iff.1 h
  have hj : x / 32 < d.stride := hdims.stride_eq ▸ lt_ceilDiv32 hx
  exact MatSlot.ok_iff.2 ⟨hdims, MatSlot.wf_mput hwf x y b,
    hset.putBit (Nat.mod_lt _ (by decide)) (MatSlot.inside_row hy hj (by omega)) b⟩

/-- `MFILL` and `MROT180` write logical bits only (R165, R168). -/
theorem MatSlot.Ok.rewrite {p : Params} {d : MatSlot} (h : d.Ok p) (f : Nat → Nat → Bool) : (d.rewrite f).Ok p := by
  obtain ⟨hdims, _, _⟩ := MatSlot.ok_iff.1 h
  refine MatSlot.ok_iff.2 ⟨hdims, MatSlot.wf_rewrite d f,
    (WordMem.setOnly_nil (d.rewrite f).Inside).writeRun fun j hj k hk hbit => ?_⟩
  simp only [getLsbD_wordOfBits, Bool.and_eq_true, decide_eq_true_eq] at hbit
  rw [Nat.zero_add]
  exact ⟨hj, hbit.2.1⟩

/-- `MGETROW` makes a vector of the bits of a row (R166). -/
theorem MatSlot.Ok.rowVector {p : Params} {d : MatSlot} (h : d.Ok p) (hcap : d.width ≤ p.vcapBits) (y : Nat) :
    VecSlot.Ok p
      { size := d.width, words := WordMem.writeRun [] 0 (fun j => d.words.read (y * d.stride + j)) d.stride } := by
  obtain ⟨_, _, hset⟩ := MatSlot.ok_iff.1 h
  refine VecSlot.ok_iff.2 ⟨hcap, WordMem.wf_writeRun WordMem.wf_nil _ _ _,
    (WordMem.setOnly_nil _).writeRun fun j hj k hk hbit => ?_⟩
  have hwidth := (hset (y * d.stride + j) k hk hbit).2
  rw [rowWord_mod y hj] at hwidth
  rwa [Nat.zero_add]

/-- `MSETROW` puts the bits of a vector of the matrix's width into a row (R167). -/
theorem MatSlot.Ok.setRow {p : Params} {d : MatSlot} (h : d.Ok p) {v : VecSlot} (hv : v.Ok p) (hsize : v.size = d.width)
    {y : Nat} (hy : y < d.height) :
    MatSlot.Ok p { d with words := d.words.writeRun (y * d.stride) (fun j => v.words.read j) d.stride } := by
  obtain ⟨hdims, hwf, hset⟩ := MatSlot.ok_iff.1 h
  obtain ⟨_, _, hvset⟩ := VecSlot.ok_iff.1 hv
  refine MatSlot.ok_iff.2 ⟨hdims, WordMem.wf_writeRun hwf _ _ _, hset.writeRun fun j hj k hk hbit => ?_⟩
  exact MatSlot.inside_row hy hj (hsize ▸ hvset j k hk hbit)

/-! ### The byte buffer -/

theorem ByteMem.mem_writeRun {m : ByteMem} {base n : Nat} {f : Nat → Byte} {c : Host.Cell}
    (h : c ∈ ByteMem.writeRun m base f n) : c ∈ m ∨ c.1 < base + n := by
  induction n generalizing m with
  | zero => exact .inl h
  | succ n ih =>
    rcases ih h with hmem | hlt
    · rcases Sparse.mem_store hmem with rfl | hmem
      · exact .inr (by simp only; omega)
      · exact .inl hmem
    · exact .inr (by omega)

/-- `VTOBYTES` writes bytes of existing indices (R138). -/
theorem bufferOk_writeRun {p : Params} {m : ByteMem} (h : BufferOk p m) {base n : Nat} (f : Nat → Byte)
    (hn : base + n ≤ p.bufBytes) : BufferOk p (ByteMem.writeRun m base f n) := by
  obtain ⟨hwf, hlt⟩ := h
  refine ⟨ByteMem.wf_writeRun hwf _ _ _, fun c hc => ?_⟩
  rcases ByteMem.mem_writeRun hc with hmem | hb
  · exact hlt c hmem
  · omega

end Sys2Proof.Machine
end

section
/-! PROOFS. What each command can do to the state, said once: `exec_effect`. -/

namespace Sys2Proof.Machine

/-! ### Reasoning about what a meaning answers -/

/-- Every next state that `r` answers satisfies `P`. -/
def Answers (P : State → Prop) (r : Result) : Prop := ∀ t, r = .next t → P t

section
variable {P : State → Prop}

theorem answers_next {t : State} (h : P t) : Answers P (.next t) := by
  rintro _ ⟨⟩
  exact h

theorem answers_fault (f : Fault) : Answers P (.fault f) := by rintro _ ⟨⟩

theorem answers_refused (r : Refusal) : Answers P (.refused r) := by rintro _ ⟨⟩

theorem answers_ite {b : Prop} [Decidable b] {r r' : Result} (h : b → Answers P r) (h' : ¬b → Answers P r') :
    Answers P (if b then r else r') := by
  split
  · next hb => exact h hb
  · next hb => exact h' hb

/-- A command on a slot is its body on a slot that exists. -/
theorem answers_withSlot {a : Nat} {k : Fin 4 → Result} (h : ∀ v : Fin 4, a = v → Answers P (k v)) :
    Answers P (withSlot a k) := by
  intro t ht
  obtain ⟨v, ha, hk⟩ := withSlot_next ht
  exact h v ha t hk

/-- A check of a command: its fault, or the rest with the check passed. -/
theorem answers_check {b : Prop} [Decidable b] {s : State} {c : Cause} {r : Result} (hfault : P (s.takeFault c))
    (h : ¬b → Answers P r) : Answers P (if b then .next (s.takeFault c) else r) :=
  answers_ite (fun _ => answers_next hfault) h

/-- The model's stop at an address that does not exist: the rest, with the addresses existing. -/
theorem answers_address {b : Prop} [Decidable b] {f : Fault} {r : Result} (h : b → Answers P r) :
    Answers P (if ¬b then .fault f else r) :=
  answers_ite (fun _ => answers_fault f) fun hb => h (not_not.1 hb)

end

/-! ### The effects -/

/-- What a command can do to a state: take a fault, answer without a write of storage, return from a fault, reset, or
write one object that 20_memory.md R61 gives it, which it leaves well formed if the state was. -/
inductive CommandEffect (i : Instr) (s : State) : State → Prop where
  | fault (c : Cause) : CommandEffect i s (s.takeFault c)
  | answer (r : Quad Word) : CommandEffect i s (s.succeed r)
  /-- `BRD` of a byte without a value uses up one free value (log 5). -/
  | freeAnswer (r : Quad Word) (hi : i = .brd) : CommandEffect i s { s.succeed r with freeCount := s.freeCount + 1 }
  | errclr (hi : i = .errclr) : CommandEffect i s (s.clearFaultRecord.succeed noResults)
  | sreset (hi : i = .sreset) : CommandEffect i s { s.toReset s.inReset with cmd := s.cmd }
  | vec (v : Fin 4) (d : VecSlot) (r : Quad Word) (hw : writesVec i v = true) (hok : s.Inv → d.Ok s.params) :
      CommandEffect i s ((s.setVec v d).succeed r)
  | mat (m : Fin 4) (d : MatSlot) (r : Quad Word) (hw : writesMat i m = true) (hok : s.Inv → d.Ok s.params) :
      CommandEffect i s ((s.setMat m d).succeed r)
  | buffer (bytes : ByteMem) (r : Quad Word) (hw : writesBuffer i = true)
      (hok : s.Inv → BufferOk s.params bytes) : CommandEffect i s (State.succeed { s with bb := bytes } r)

/-! ### Reading the invariant -/

theorem State.Inv.legal {s : State} (h : s.Inv) : s.params.Legal :=
  have ⟨hlegal, _⟩ := h
  hlegal

theorem State.Inv.vecOk {s : State} (h : s.Inv) (v : Fin 4) : (s.vec.get v).Ok s.params :=
  have ⟨_, hvec, _⟩ := h
  hvec v

theorem State.Inv.matOk {s : State} (h : s.Inv) (m : Fin 4) : (s.mat.get m).Ok s.params :=
  have ⟨_, _, hmat, _⟩ := h
  hmat m

theorem State.Inv.bufferOk {s : State} (h : s.Inv) : BufferOk s.params s.bb :=
  have ⟨_, _, _, hbuffer, _⟩ := h
  hbuffer

theorem State.Inv.recordOk {s : State} (h : s.Inv) : s.RecordOk :=
  have ⟨_, _, _, _, hrecord⟩ := h
  hrecord

/-! ### The commands without a slot -/

theorem execBrd_effect (s : State) : Answers (CommandEffect .brd s) (execBrd s) := by
  refine answers_check (.fault _) fun _ => ?_
  split
  · exact answers_next (.answer _)
  · exact answers_next (.freeAnswer _ rfl)

/-! ### The vector commands -/

section
variable (a b : Nat) (s : State)

theorem execVinit_effect : Answers (CommandEffect (.vinit a) s) (execVinit a s) :=
  answers_withSlot fun v ha => answers_check (.fault _) fun _ => answers_check (.fault _) fun hcap =>
    answers_address fun _ => answers_next <| .vec v _ _ (by simp [writesVec, ha]) fun _ =>
      VecSlot.ok_zeros (Nat.le_of_not_lt hcap)

theorem execVsize_effect : Answers (CommandEffect (.vsize a) s) (execVsize a s) :=
  answers_withSlot fun _ _ => answers_next (.answer _)

theorem execVget_effect : Answers (CommandEffect (.vget a) s) (execVget a s) :=
  answers_withSlot fun _ _ => answers_check (.fault _) fun _ => answers_address fun _ => answers_next (.answer _)

theorem execVset_effect : Answers (CommandEffect (.vset a) s) (execVset a s) :=
  answers_withSlot fun v ha => answers_check (.fault _) fun hi => answers_address fun _ =>
    answers_next <| .vec v _ _ (by simp [writesVec, ha]) fun inv => (inv.vecOk v).vput (Nat.lt_of_not_le hi) _

theorem execVflip_effect : Answers (CommandEffect (.vflip a) s) (execVflip a s) :=
  answers_withSlot fun v ha => answers_check (.fault _) fun hi => answers_address fun _ =>
    answers_next <| .vec v _ _ (by simp [writesVec, ha]) fun inv => (inv.vecOk v).vput (Nat.lt_of_not_le hi) _

theorem execVappend_effect : Answers (CommandEffect (.vappend a) s) (execVappend a s) :=
  answers_withSlot fun v ha => answers_check (.fault _) fun _ => answers_check (.fault _) fun hcap =>
    answers_address fun _ => answers_next <| .vec v _ _ (by simp [writesVec, ha]) fun inv =>
      (inv.vecOk v).append _ (Nat.le_of_not_lt hcap)

theorem execVrdbits_effect : Answers (CommandEffect (.vrdbits a) s) (execVrdbits a s) :=
  answers_withSlot fun _ _ => answers_check (.fault _) fun _ => answers_check (.fault _) fun _ =>
    answers_address fun _ => answers_next (.answer _)

theorem execVxor_effect : Answers (CommandEffect (.vxor a b) s) (execVxor a b s) :=
  answers_withSlot fun v ha => answers_withSlot fun u _ => answers_check (.fault _) fun hsize =>
    answers_address fun _ => answers_next <| .vec v _ _ (by simp [writesVec, ha]) fun inv =>
      (inv.vecOk v).xor (inv.vecOk u) (not_not.1 hsize) _

theorem execVtobytes_effect : Answers (CommandEffect (.vtobytes a) s) (execVtobytes a s) :=
  answers_withSlot fun v ha => answers_check (.fault _) fun _ => answers_check (.fault _) fun hcap =>
    answers_address fun _ => answers_next <| .buffer _ _ (by simp [writesBuffer, ha]) fun inv =>
      bufferOk_writeRun inv.bufferOk _ (Nat.le_of_not_lt hcap)

/-! ### The matrix commands -/

theorem execMinit_effect : Answers (CommandEffect (.minit a) s) (execMinit a s) :=
  answers_withSlot fun m ha => answers_check (.fault _) fun hdims => answers_check (.fault _) fun hcap =>
    answers_next <| .mat m _ _ (by simp [writesMat, ha]) fun _ => by
      simp only [neg, not_or, Nat.not_le] at hdims
      obtain ⟨hw, hh, hw', hh'⟩ := hdims
      exact MatSlot.ok_zeros ⟨Nat.pos_of_ne_zero hw, hw'⟩ ⟨Nat.pos_of_ne_zero hh, hh'⟩ (Nat.le_of_not_lt hcap)

theorem execMdim_effect : Answers (CommandEffect (.mdim a) s) (execMdim a s) :=
  answers_withSlot fun _ _ => answers_next (.answer _)

theorem execMget_effect : Answers (CommandEffect (.mget a) s) (execMget a s) :=
  answers_withSlot fun _ _ => answers_check (.fault _) fun _ => answers_check (.fault _) fun _ =>
    answers_address fun _ => answers_next (.answer _)

/-- A coordinate that passes the check of R163 and R164 is inside. -/
theorem inside_of_not_outside {d : MatSlot} {x y : Nat} (h : ¬(d.width ≤ x ∨ d.height ≤ y)) :
    x < d.width ∧ y < d.height := by
  omega

theorem execMset_effect : Answers (CommandEffect (.mset a) s) (execMset a s) :=
  answers_withSlot fun m ha => answers_check (.fault _) fun _ => answers_check (.fault _) fun hxy =>
    answers_address fun _ => answers_next <| .mat m _ _ (by simp [writesMat, ha]) fun inv =>
      have ⟨hx, hy⟩ := inside_of_not_outside hxy
      (inv.matOk m).mput hx hy _

theorem execMflip_effect : Answers (CommandEffect (.mflip a) s) (execMflip a s) :=
  answers_withSlot fun m ha => answers_check (.fault _) fun _ => answers_check (.fault _) fun hxy =>
    answers_address fun _ => answers_next <| .mat m _ _ (by simp [writesMat, ha]) fun inv =>
      have ⟨hx, hy⟩ := inside_of_not_outside hxy
      (inv.matOk m).mput hx hy _

theorem execMfill_effect : Answers (CommandEffect (.mfill a) s) (execMfill a s) :=
  answers_withSlot fun m ha => answers_check (.fault _) fun _ => answers_check (.fault _) fun _ =>
    answers_check (.fault _) fun _ => answers_address fun _ => answers_next <|
      .mat m _ _ (by simp [writesMat, ha]) fun inv => (inv.matOk m).rewrite _

theorem execMgetrow_effect : Answers (CommandEffect (.mgetrow a b) s) (execMgetrow a b s) :=
  answers_withSlot fun m _ => answers_withSlot fun v hb => answers_check (.fault _) fun _ =>
    answers_check (.fault _) fun _ => answers_check (.fault _) fun hcap => answers_address fun _ =>
      answers_address fun _ => answers_next <| .vec v _ _ (by simp [writesVec, hb]) fun inv =>
        (inv.matOk m).rowVector (Nat.le_of_not_lt hcap) _

theorem execMsetrow_effect : Answers (CommandEffect (.msetrow a b) s) (execMsetrow a b s) :=
  answers_withSlot fun m ha => answers_withSlot fun v _ => answers_check (.fault _) fun _ =>
    answers_check (.fault _) fun hy => answers_check (.fault _) fun hsize => answers_address fun _ =>
      answers_address fun _ => answers_next <| .mat m _ _ (by simp [writesMat, ha]) fun inv =>
        (inv.matOk m).setRow (inv.vecOk v) (not_not.1 hsize) (Nat.lt_of_not_le hy)

theorem execMrot180_effect : Answers (CommandEffect (.mrot180 a) s) (execMrot180 a s) :=
  answers_withSlot fun m ha => answers_check (.fault _) fun _ => answers_address fun _ =>
    answers_next <| .mat m _ _ (by simp [writesMat, ha]) fun inv => (inv.matOk m).rewrite _

theorem execMtop_effect : Answers (CommandEffect (.mtop a) s) (execMtop a s) :=
  answers_withSlot fun _ _ => answers_check (.fault _) fun _ => answers_address fun _ => by
    split <;> exact answers_next (.answer _)

theorem execMbot_effect : Answers (CommandEffect (.mbot a) s) (execMbot a s) :=
  answers_withSlot fun _ _ => answers_check (.fault _) fun _ => answers_address fun _ => by
    split <;> exact answers_next (.answer _)

theorem execMrect_effect : Answers (CommandEffect (.mrect a) s) (execMrect a s) :=
  answers_withSlot fun _ _ => answers_check (.fault _) fun _ => answers_address fun _ => answers_next (.answer _)

end

/-! ### All commands -/

/-- All that a command can do, if it answers a next state. -/
theorem exec_effect {i : Instr} {s t : State} (h : exec i s = .next t) : CommandEffect i s t := by
  revert t
  change Answers (CommandEffect i s) (exec i s)
  cases i with
  | nop => exact answers_next (.answer _)
  | errclr => exact answers_next (.errclr rfl)
  | sreset => exact answers_next (.sreset rfl)
  | brd => exact execBrd_effect s
  | vinit a => exact execVinit_effect a s
  | vsize a => exact execVsize_effect a s
  | vget a => exact execVget_effect a s
  | vset a => exact execVset_effect a s
  | vflip a => exact execVflip_effect a s
  | vappend a => exact execVappend_effect a s
  | vrdbits a => exact execVrdbits_effect a s
  | vxor a b => exact execVxor_effect a b s
  | vtobytes a => exact execVtobytes_effect a s
  | minit a => exact execMinit_effect a s
  | mdim a => exact execMdim_effect a s
  | mget a => exact execMget_effect a s
  | mset a => exact execMset_effect a s
  | mflip a => exact execMflip_effect a s
  | mfill a => exact execMfill_effect a s
  | mgetrow a b => exact execMgetrow_effect a b s
  | msetrow a b => exact execMsetrow_effect a b s
  | mrot180 a => exact execMrot180_effect a s
  | mtop a => exact execMtop_effect a s
  | mbot a => exact execMbot_effect a s
  | mrect a => exact execMrect_effect a s

end Sys2Proof.Machine
end

section
/-! PROOFS. What one step can do to the state, said once: `step_effect`; and the register block (10_state.md R32, R33). -/

namespace Sys2Proof.Machine

/-! ### The register map -/

theorem regAt_arg (k : Fin 4) : regAt (0x10 + 4 * k.val) = .arg k := by fin_cases k <;> rfl

theorem regAt_res (k : Fin 4) : regAt (0x28 + 4 * k.val) = .res k := by fin_cases k <;> rfl

theorem regAt_errArg (k : Fin 4) : regAt (0x40 + 4 * k.val) = .errArg k := by fin_cases k <;> rfl

theorem regAt_of_beyond {offset : Nat} (h : 0x50 ≤ offset) : regAt offset = .reserved := by
  unfold regAt
  split
  any_goals omega
  rfl

/-- Only the four `ARG` locations are `ARG` registers. -/
theorem offset_of_regAt_arg {offset : Nat} {k : Fin 4} (h : regAt offset = .arg k) : offset = 0x10 + 4 * k.val := by
  unfold regAt at h
  split at h <;> cases h <;> rfl

/-- Only one location is `CMD`. -/
theorem offset_of_regAt_cmd {offset : Nat} (h : regAt offset = .cmd) : offset = 0x20 := by
  unfold regAt at h
  split at h <;> cases h
  rfl

theorem writeReg_arg (s : State) (k : Fin 4) (value : Word) :
    s.writeReg (.arg k) value = .next { s with arg := s.arg.set k value } := rfl

/-- A write of any register but `ARG` and `CMD` is ignored (R33). -/
theorem writeReg_ignored (s : State) {r : Reg} (value : Word) (harg : ∀ k, r ≠ .arg k) (hcmd : r ≠ .cmd) :
    s.writeReg r value = .next s := by
  cases r with
  | arg k => exact absurd rfl (harg k)
  | cmd => exact absurd rfl hcmd
  | _ => rfl

/-! ### A command word -/

theorem runCommandWord_ok {cw : Word} {i : Instr} (h : decode cw = .ok i) (s : State) :
    runCommandWord cw s = exec i { s with cmd := cw } := by
  simp [runCommandWord, h]

theorem runCommandWord_error {cw : Word} {e : DecodeError} (h : decode cw = .error e) (s : State) :
    runCommandWord cw s = .next (State.takeFault { s with cmd := cw } .illegalCommand) := by
  simp [runCommandWord, h]

/-! ### One event -/

theorem step_idle {s : State} (h : s.events = []) : step s = .next s := by simp [step, h]

theorem step_event {s : State} {e : HostEvent} {rest : List HostEvent} (h : s.events = e :: rest) :
    step s = performEvent e { s with events := rest } := by
  simp [step, h]

/-- A defined host write (20_memory.md R80). -/
theorem step_write {s : State} {offset : Nat} {value : Word} {rest : List HostEvent}
    (h : s.events = .W offset value :: rest) (hoffset : AccessOk 32 offset) (hreset : s.inReset = false) :
    step s = State.writeReg { s with events := rest } (regAt offset) value := by
  simp [step_event h, performEvent, hoffset.2, hreset]

/-- A defined host read, whose value is added to the list of values read (R33; log 2). -/
theorem step_read {s : State} {offset : Nat} {rest : List HostEvent} (h : s.events = .R offset :: rest)
    (hoffset : AccessOk 32 offset) (hreset : s.inReset = false) :
    step s = .next { s with events := rest, reads := s.reads ++ [s.readReg (regAt offset)] } := by
  rw [step_event h, performEvent, if_neg (not_not.2 hoffset), if_neg (by simp [hreset])]
  rfl

/-- A defined access while reset is asserted (70_reset_and_hazards.md R310). -/
theorem step_access_inReset {s : State} {offset : Nat} {value : Word} {rest : List HostEvent}
    (h : s.events = .W offset value :: rest ∨ s.events = .R offset :: rest) (hoffset : AccessOk 32 offset)
    (hreset : s.inReset = true) : step s = .next { s with events := rest } := by
  rcases h with h | h
  · simp [step_event h, performEvent, hoffset.2, hreset]
  · simp [step_event h, performEvent, hoffset.2, hreset]

/-- What one host event can do to a state. -/
inductive EventEffect (s : State) : State → Prop where
  | ignored : EventEffect s s
  | read (value : Word) : EventEffect s { s with reads := s.reads ++ [value] }
  | argWrite (k : Fin 4) (value : Word) : EventEffect s { s with arg := s.arg.set k value }
  | command {cw : Word} {i : Instr} {t : State} (hd : decode cw = .ok i) (h : CommandEffect i { s with cmd := cw } t) :
      EventEffect s t
  | illegal {cw : Word} {e : DecodeError} (hd : decode cw = .error e) :
      EventEffect s (State.takeFault { s with cmd := cw } .illegalCommand)
  | reset (asserted : Bool) : EventEffect s (s.toReset asserted)

theorem runCommandWord_effect (cw : Word) (s : State) : Answers (EventEffect s) (runCommandWord cw s) := by
  cases h : decode cw with
  | ok i => rw [runCommandWord_ok h]; exact fun _ ht => .command h (exec_effect ht)
  | error e => rw [runCommandWord_error h]; exact answers_next (.illegal h)

theorem writeReg_effect (s : State) (r : Reg) (value : Word) : Answers (EventEffect s) (s.writeReg r value) := by
  cases r with
  | arg k => exact answers_next (.argWrite k value)
  | cmd => exact runCommandWord_effect value s
  | _ => exact answers_next .ignored

theorem performEvent_effect (e : HostEvent) (s : State) : Answers (EventEffect s) (performEvent e s) := by
  cases e with
  | write width offset value =>
    exact answers_ite (fun _ => answers_refused _) fun _ =>
      answers_ite (fun _ => answers_next .ignored) fun _ => writeReg_effect s _ value
  | read width offset =>
    exact answers_ite (fun _ => answers_refused _) fun _ =>
      answers_ite (fun _ => answers_next .ignored) fun _ => answers_next (.read _)
  | reset asserted =>
    cases asserted with
    | true => exact answers_next (.reset true)
    | false => exact answers_ite (fun _ => answers_next (.reset false)) fun _ => answers_next .ignored

/-- All that a step can do, if it answers a next state: nothing, or the effect of the oldest event, taken from the list. -/
theorem step_effect {s t : State} (h : step s = .next t) :
    (s.events = [] ∧ t = s) ∨ ∃ e rest, s.events = e :: rest ∧ EventEffect { s with events := rest } t := by
  cases hs : s.events with
  | nil =>
    rw [step_idle hs] at h
    cases h
    exact .inl ⟨rfl, rfl⟩
  | cons e rest =>
    rw [step_event hs] at h
    exact .inr ⟨e, rest, rfl, performEvent_effect e _ t h⟩

end Sys2Proof.Machine
end

section
/-! PROOFS. Every step keeps the state well formed, and the fault record is sticky (10_state.md R25, R30, R31). -/

namespace Sys2Proof.Machine

/-! ### What keeps the invariant -/

theorem inv_takeFault {s : State} (h : s.Inv) (c : Cause) : (s.takeFault c).Inv := by
  obtain ⟨hlegal, hvec, hmat, hbuffer, hrecord⟩ := h
  exact ⟨hlegal, hvec, hmat, hbuffer, recordOk_takeFault hrecord c⟩

theorem inv_succeed {s : State} (h : s.Inv) (r : Quad Word) : (s.succeed r).Inv := by
  obtain ⟨hlegal, hvec, hmat, hbuffer, hrecord⟩ := h
  exact ⟨hlegal, hvec, hmat, hbuffer, recordOk_of_succeed hrecord rfl rfl rfl⟩

theorem inv_setVec {s : State} (h : s.Inv) (v : Fin 4) {d : VecSlot} (hd : d.Ok s.params) : (s.setVec v d).Inv := by
  obtain ⟨hlegal, hvec, hmat, hbuffer, hrecord⟩ := h
  refine ⟨hlegal, fun u => ?_, hmat, hbuffer, hrecord⟩
  rw [State.setVec_vec, Quad.get_set]
  split
  · exact hd
  · exact hvec u

theorem inv_setMat {s : State} (h : s.Inv) (m : Fin 4) {d : MatSlot} (hd : d.Ok s.params) : (s.setMat m d).Inv := by
  obtain ⟨hlegal, hvec, hmat, hbuffer, hrecord⟩ := h
  refine ⟨hlegal, hvec, fun u => ?_, hbuffer, hrecord⟩
  rw [State.setMat_mat, Quad.get_set]
  split
  · exact hd
  · exact hmat u

theorem inv_setBuffer {s : State} (h : s.Inv) {bytes : ByteMem} (hb : BufferOk s.params bytes) :
    State.Inv { s with bb := bytes } := by
  obtain ⟨hlegal, hvec, hmat, _, hrecord⟩ := h
  exact ⟨hlegal, hvec, hmat, hb, hrecord⟩

/-- The whole fault record of `t` is 0. -/
def RecordCleared (t : State) : Prop := t.status = 0#32 ∧ t.errCmd = 0#32 ∧ t.errArg = Quad.fill 0#32

theorem recordOk_of_cleared {t : State} (h : RecordCleared t) : t.RecordOk := by
  obtain ⟨hstatus, hcmd, harg⟩ := h
  simp only [State.RecordOk, hstatus, hcmd, harg]
  decide

theorem inv_toReset {s : State} (h : s.params.Legal) (b : Bool) : (s.toReset b).Inv := by
  refine ⟨h, fun v => ?_, fun m => ?_, ⟨List.Pairwise.nil, fun c hc => absurd hc List.not_mem_nil⟩,
    recordOk_of_cleared ⟨rfl, rfl, rfl⟩⟩
  · rw [State.toReset_vec, Quad.get_fill]
    exact VecSlot.ok_zeros (Nat.zero_le _)
  · rw [State.toReset_mat, Quad.get_fill]
    exact MatSlot.ok_unconfigured _

/-- `ERRCLR` leaves `STATUS` 0 where its reserved bits are (R201). -/
theorem statusOnSuccess_statusOnErrClr {status : Word} (h : statusReserved status = 0#19) :
    statusOnSuccess (statusOnErrClr status) = 0#32 :=
  status_eq_of_fields (by rw [lastErr_statusOnSuccess]; rfl)
    (by rw [firstErr_statusOnSuccess, firstErr_statusOnErrClr]; rfl)
    (by rw [errLog_statusOnSuccess, errLog_statusOnErrClr]; rfl)
    (by rw [statusReserved_statusOnSuccess, statusReserved_statusOnErrClr, h]; rfl)

theorem recordCleared_errclr {s : State} (h : s.RecordOk) (r : Quad Word) :
    RecordCleared (s.clearFaultRecord.succeed r) :=
  have ⟨hreserved, _⟩ := h
  ⟨statusOnSuccess_statusOnErrClr hreserved, rfl, rfl⟩

theorem inv_errclr {s : State} (h : s.Inv) (r : Quad Word) : (s.clearFaultRecord.succeed r).Inv := by
  obtain ⟨hlegal, hvec, hmat, hbuffer, hrecord⟩ := h
  exact ⟨hlegal, hvec, hmat, hbuffer, recordOk_of_cleared (recordCleared_errclr hrecord r)⟩

/-- Every command keeps the state well formed. -/
theorem inv_of_commandEffect {i : Instr} {s t : State} (h : s.Inv) (ht : CommandEffect i s t) : t.Inv := by
  cases ht with
  | fault c => exact inv_takeFault h c
  | answer r | freeAnswer r => exact inv_succeed h r
  | errclr => exact inv_errclr h _
  | sreset => exact inv_toReset h.legal s.inReset
  | vec v d r _ hok => exact inv_succeed (inv_setVec h v (hok h)) r
  | mat m d r _ hok => exact inv_succeed (inv_setMat h m (hok h)) r
  | buffer bytes r _ hok => exact inv_succeed (inv_setBuffer h (hok h)) r

/-- Every host event keeps the state well formed. -/
theorem inv_of_eventEffect {s t : State} (h : s.Inv) (ht : EventEffect s t) : t.Inv := by
  cases ht with
  | ignored | read | argWrite => exact h
  | @command cw i _ _ hc => exact inv_of_commandEffect (s := { s with cmd := cw }) h hc
  | @illegal cw e _ => exact inv_takeFault (s := { s with cmd := cw }) h _
  | reset b => exact inv_toReset h.legal b

/-! ### The fault record -/

/-- `t` has the first-fault capture of `s` and every set bit of its log. -/
def KeepsRecord (s t : State) : Prop :=
  firstErr t.status = firstErr s.status ∧ t.errCmd = s.errCmd ∧ t.errArg = s.errArg ∧
    ∀ j < 5, (errLog s.status).getLsbD j = true → (errLog t.status).getLsbD j = true

theorem keepsRecord_refl (s : State) : KeepsRecord s s := ⟨rfl, rfl, rfl, fun _ _ h => h⟩

theorem keepsRecord_succeed {s u : State} (r : Quad Word) (h : KeepsRecord s u) : KeepsRecord s (u.succeed r) := by
  simpa only [KeepsRecord, State.succeed_status, State.succeed_errCmd, State.succeed_errArg, firstErr_statusOnSuccess,
    errLog_statusOnSuccess] using h

/-- A fault after the first only logs its cause (60_exceptions.md R285). -/
theorem keepsRecord_takeFault {s : State} (h : firstErr s.status ≠ 0#4) (c : Cause) : KeepsRecord s (s.takeFault c) := by
  have hf := faults_takeFault s c
  obtain ⟨hfirst, hcmd, harg⟩ := hf.later h
  exact ⟨hfirst, hcmd, harg, fun j hj hbit => by rw [hf.errLog j hj, hbit, Bool.true_or]⟩

theorem commandEffect_keeps_or_clears_record {i : Instr} {s t : State} (hinv : s.Inv) (h : firstErr s.status ≠ 0#4)
    (ht : CommandEffect i s t) : KeepsRecord s t ∨ RecordCleared t := by
  cases ht with
  | fault c => exact .inl (keepsRecord_takeFault h c)
  | answer r | freeAnswer r | vec _ _ r | mat _ _ r | buffer _ r =>
    exact .inl (keepsRecord_succeed r (keepsRecord_refl s))
  | errclr => exact .inr (recordCleared_errclr hinv.recordOk _)
  | sreset => exact .inr ⟨rfl, rfl, rfl⟩

theorem eventEffect_keeps_or_clears_record {s t : State} (hinv : s.Inv) (h : firstErr s.status ≠ 0#4)
    (ht : EventEffect s t) : KeepsRecord s t ∨ RecordCleared t := by
  cases ht with
  | ignored | read | argWrite => exact .inl (keepsRecord_refl s)
  | @command cw i _ _ hc => exact commandEffect_keeps_or_clears_record (s := { s with cmd := cw }) hinv h hc
  | @illegal cw e _ => exact .inl (keepsRecord_takeFault (s := { s with cmd := cw }) h _)
  | reset b => exact .inr ⟨rfl, rfl, rfl⟩

/-! ### Reset -/

theorem atReset_toReset (s : State) (b : Bool) : AtReset (s.toReset b) where
  arg k := by simp
  res k := by simp
  status := rfl
  errCmd := rfl
  errArg k := by simp
  vec v := by rw [State.toReset_vec, Quad.get_fill]; rfl
  mat m := by rw [State.toReset_mat, Quad.get_fill]; exact ⟨rfl, rfl, rfl⟩
  bb _ := rfl

/-- A register that reads a parameter reads all of it: a legal parameter is a 32-bit number (00_scope.md R7). -/
theorem toNat_readReg_params {s : State} (h : s.params.Legal) :
    (s.readReg .vcap).toNat = s.params.vcapBits ∧ (s.readReg .mcap).toNat = s.params.mcapWords ∧
      (s.readReg .bcap).toNat = s.params.bufBytes := by
  obtain ⟨_, _, hvcap, _, hmcap, _, hbuf⟩ := h
  exact ⟨toNat_resultOf (by omega), toNat_resultOf (by omega), toNat_resultOf (by omega)⟩

end Sys2Proof.Machine
end

section
/-! PROOFS. The obligations about the state: what a step, a register access, a reset and a command do to it. -/

open Sys2Proof Sys2Proof.Machine

namespace Sys2Proof.Proofs

/-- Settles O15: each event is one of the effects of `EventEffect`, and each of them keeps the invariant. -/
theorem stepKeepsWellFormed : Obligations.StepKeepsWellFormed := by
  intro s t hinv hstep
  rcases step_effect hstep with ⟨_, rfl⟩ | ⟨_, rest, _, heffect⟩
  · exact hinv
  · exact inv_of_eventEffect (s := { s with events := rest }) hinv heffect

/-- Settles O20: a command writes at most one object, and `CommandEffect` names it as one the command may write. -/
theorem commandsKeepOtherObjects : Obligations.CommandsKeepOtherObjects := by
  intro i s t hexec
  cases exec_effect hexec with
  | fault | answer | freeAnswer | errclr => exact ⟨fun _ _ => rfl, fun _ _ => rfl, fun _ => rfl⟩
  | sreset hi => subst hi; simp [writesVec, writesMat, writesBuffer]
  | vec u d r hw =>
    refine ⟨fun v hv => ?_, fun _ _ => rfl, fun _ => rfl⟩
    have hne : v ≠ u := fun e => by simp [e, hw] at hv
    simp [hne]
  | mat u d r hw =>
    refine ⟨fun _ _ => rfl, fun m hm => ?_, fun _ => rfl⟩
    have hne : m ≠ u := fun e => by simp [e, hw] at hm
    simp [hne]
  | buffer bytes r hw => exact ⟨fun _ _ => rfl, fun _ _ => rfl, fun hb => by simp [hw] at hb⟩

/-- Settles O22: each event keeps the capture and the log, or clears the whole record. -/
theorem faultRecordIsSticky : Obligations.FaultRecordIsSticky := by
  intro s t hinv hfirst hstep
  rcases step_effect hstep with ⟨_, rfl⟩ | ⟨_, rest, _, heffect⟩
  · exact .inl (keepsRecord_refl t)
  · exact eventEffect_keeps_or_clears_record (s := { s with events := rest }) hinv hfirst heffect

/-- Settles O7. -/
theorem stepRunsDecodedCommand : Obligations.StepRunsDecodedCommand := by
  intro s cw i rest hreset hevents
  have hstep : step s = runCommandWord cw { s with events := rest } := by
    rw [step_write hevents (by decide) hreset]
    rfl
  exact ⟨hstep, fun hdecode => by rw [hstep, runCommandWord_ok hdecode]⟩

/-- Settles O8: the value is `readReg` of the register that the map gives the offset. -/
theorem registerReads : Obligations.RegisterReads := by
  intro s offset rest hinv hreset hoffset hevents
  obtain ⟨hvcap, hmcap, hbcap⟩ := toNat_readReg_params hinv.legal
  refine ⟨s.readReg (regAt offset), ?_, ?_, ?_, ?_, ?_, fun k hk => ?_, ?_, ?_, fun k hk => ?_, ?_, ?_,
    fun k hk => ?_, fun hbeyond => ?_⟩
  · exact step_read hevents hoffset hreset
  · rintro rfl; rfl
  · rintro rfl; exact hvcap
  · rintro rfl; exact hmcap
  · rintro rfl; exact hbcap
  · rw [hk, regAt_arg]; rfl
  · rintro rfl; rfl
  · rintro rfl; rfl
  · rw [hk, regAt_res]; rfl
  · rintro rfl; rfl
  · rintro rfl; rfl
  · rw [hk, regAt_errArg]; rfl
  · rw [regAt_of_beyond hbeyond]; rfl

/-- Settles O9: outside 0x10 to 0x20 stands neither an `ARG` nor `CMD`. -/
theorem registerWrites : Obligations.RegisterWrites := by
  intro s offset value rest hreset hoffset hevents
  rw [step_write hevents hoffset hreset]
  refine ⟨fun k hk => by rw [hk, regAt_arg, writeReg_arg], fun hout => ?_⟩
  refine writeReg_ignored _ value (fun k harg => ?_) fun hcmd => ?_
  · have := offset_of_regAt_arg harg
    omega
  · have := offset_of_regAt_cmd hcmd
    omega

/-- Settles O11. -/
theorem resetLine : Obligations.ResetLine := by
  refine ⟨fun s rest hevents => ?_,
    fun s offset value rest hreset hoffset hevents => step_access_inReset hevents hoffset hreset,
    fun s rest hreset hevents => ?_, fun s hevents => step_idle hevents⟩
  · exact ⟨_, step_event hevents, atReset_toReset _ true, rfl, rfl, rfl, rfl⟩
  · refine ⟨State.toReset { s with events := rest } false, ?_, atReset_toReset _ false, rfl, rfl, rfl, rfl⟩
    rw [step_event hevents]
    simp [performEvent, hreset]

/-- Settles O12: `State.reset` is what a reset leaves of itself. -/
theorem resetValues : Obligations.ResetValues :=
  ⟨atReset_toReset State.reset false, rfl, rfl, toNat_readReg_params (s := State.reset) (by decide)⟩

/-- Settles O14. -/
theorem resetIsWellFormed : Obligations.ResetIsWellFormed :=
  inv_toReset (s := State.reset) (by decide) false

/-- Settles O19: every effect but that of `SRESET` keeps `ARG`, and every effect keeps the rest. -/
theorem commandsKeepHostState : Obligations.CommandsKeepHostState := by
  intro i s t hexec
  cases exec_effect hexec with
  | sreset hi => exact ⟨rfl, rfl, rfl, rfl, rfl, fun hne => absurd hi hne⟩
  | _ => exact ⟨rfl, rfl, rfl, rfl, rfl, fun _ => rfl⟩

end Sys2Proof.Proofs
end

section
/-! PROOFS. Each command in a well-formed state, said once: its checks in the order of 60_exceptions.md R278, each with
the fault it takes, and the state it leaves when they all pass. -/

namespace Sys2Proof.Machine

/-! ### Checks, then success -/

/-- The fault of the first failing check taken; `done` if no check fails (60_exceptions.md R278). -/
def State.afterChecks (s : State) (checks : List (Bool × Cause)) (done : State) : State :=
  match firstFailing checks with
  | some c => s.takeFault c
  | none => done

@[simp] theorem State.afterChecks_nil (s done : State) : s.afterChecks [] done = done := rfl

theorem State.afterChecks_of_some {s : State} {checks : List (Bool × Cause)} {c : Cause}
    (h : firstFailing checks = some c) (done : State) : s.afterChecks checks done = s.takeFault c := by
  simp [State.afterChecks, h]

theorem State.afterChecks_of_none {s : State} {checks : List (Bool × Cause)} (h : firstFailing checks = none)
    (done : State) : s.afterChecks checks done = done := by
  simp [State.afterChecks, h]

theorem firstFailing_eq_none {checks : List (Bool × Cause)} (h : ∀ check ∈ checks, check.1 = false) :
    firstFailing checks = none := by
  induction checks with
  | nil => rfl
  | cons check rest ih =>
    obtain ⟨b, c⟩ := check
    obtain rfl : b = false := h _ List.mem_cons_self
    exact ih fun check' hmem => h check' (List.mem_cons_of_mem _ hmem)

section
variable {p : Prop} [Decidable p] {b : Bool} {s u done : State} {c : Cause} {checks : List (Bool × Cause)} {r : Result}

/-- A command on a slot that exists is its body. -/
theorem slot_then {v : Fin 4} {k : Fin 4 → Result} (h : k v = .next u) : withSlot v k = .next u := by
  rw [withSlot_val, h]

/-- A check of a meaning is the next check of the list. -/
theorem check_then (hb : b = true ↔ p) (h : ¬p → r = .next (s.afterChecks checks done)) :
    (if p then .next (s.takeFault c) else r) = .next (s.afterChecks ((b, c) :: checks) done) := by
  by_cases hp : p
  · rw [if_pos hp, hb.2 hp]
    rfl
  · rw [if_neg hp, h hp, Bool.eq_false_iff.2 (mt hb.1 hp)]
    rfl

/-- The model's stop is not met where the address exists (20_memory.md R60). -/
theorem address_then {f : Fault} (hp : p) (h : r = .next u) : (if ¬p then .fault f else r) = .next u := by
  rw [if_neg (not_not.2 hp), h]

end

/-! ### Addresses of a well-formed state -/

theorem State.Inv.vecSize_le {s : State} (h : s.Inv) (v : Fin 4) : (s.vec.get v).size ≤ s.params.vcapBits :=
  have ⟨hsize, _⟩ := h.vecOk v
  hsize

/-- Bits of a vector are bits of existing words. -/
theorem State.Inv.vecBitsExist {s : State} (h : s.Inv) {v : Fin 4} {off n : Nat}
    (hn : ¬(s.vec.get v).size < off + n) : s.vsBitsExist off n :=
  h.vsBitsExist (Nat.le_trans (Nat.le_of_not_lt hn) (h.vecSize_le v))

/-- The words of a row that fits a vector slot exist there. -/
theorem State.Inv.rowFitsVector {s : State} (h : s.Inv) {m : Fin 4} (hcap : (s.mat.get m).width ≤ s.params.vcapBits) :
    s.vsWordsExist (s.mat.get m).stride := by
  rw [h.stride_eq m]
  exact h.vsWordsExist hcap

/-! ### The checks -/

theorem unconfigured_iff (s : State) (m : Fin 4) :
    (unconfigured (s.matAt m)).1 = true ↔ ¬(s.mat.get m).configured := by
  simp [unconfigured]

theorem outside_iff (s : State) (m : Fin 4) (x y : Nat) :
    (outside (s.matAt m) x y).1 = true ↔ (s.mat.get m).width ≤ x ∨ (s.mat.get m).height ≤ y := by
  simp [outside]

/-! ### The control commands -/

section
variable {s : State}

/-- What `BRD` leaves when its index exists: a written byte is read, any other is a free value (R203; log 5). -/
def State.afterBrd (s : State) : State :=
  match ByteMem.byteAt? s.bb (s.argNat 0) with
  | some b => s.succeed (result0 (b.setWidth 32))
  | none => { s.succeed (result0 ((Config.freeByte s.freeCount).setWidth 32)) with freeCount := s.freeCount + 1 }

theorem State.afterBrd_of_written {b : Byte} (h : ByteMem.byteAt? s.bb (s.argNat 0) = some b) :
    s.afterBrd = s.succeed (result0 (b.setWidth 32)) := by
  simp [State.afterBrd, h]

theorem execNop_eq : execNop s = .next (s.succeed noResults) := rfl

theorem execErrclr_eq : execErrclr s = .next (s.clearFaultRecord.succeed noResults) := rfl

theorem execSreset_eq : execSreset s = .next { s.toReset s.inReset with cmd := s.cmd } := rfl

theorem execBrd_eq : execBrd s = .next (s.afterChecks (checksOf .brd s) s.afterBrd) := by
  refine check_then decide_eq_true_iff fun _ => ?_
  rw [State.afterChecks_nil]
  unfold State.afterBrd
  cases ByteMem.byteAt? s.bb (s.argNat 0) <;> rfl

end

/-! ### The vector commands -/

/-- The vector with the low `n` bits of `value` appended, the most significant first (R135). -/
def VecSlot.append (d : VecSlot) (value : Word) (n : Nat) : VecSlot :=
  { d.vputRun d.size (fun k => value.getLsbD (n - 1 - k)) n with size := d.size + n }

/-- The vector whose live words are those of `d` XOR those of `c` (R137). -/
def VecSlot.xor (d c : VecSlot) : VecSlot :=
  { d with words := d.words.writeRun 0 (fun j => d.words.read j ^^^ c.words.read j) (ceilDiv32 d.size) }

/-- The byte buffer after `numBytes` bytes of the vector from bit `off` on are serialised to `base` (R138). -/
def VecSlot.serialise (d : VecSlot) (off base numBytes : Nat) (bb : ByteMem) : ByteMem :=
  ByteMem.writeRun bb base (fun j => d.byteAt (off + 8 * j)) numBytes

section
variable {s : State} (h : s.Inv) (v u : Fin 4)
include h

theorem execVinit_eq : execVinit v s = .next (s.afterChecks (checksOf (.vinit v) s)
    ((s.setVec v { size := s.argNat 0, words := [] }).succeed (result0 (resultOf (s.argNat 0))))) :=
  slot_then <| check_then decide_eq_true_iff fun _ => check_then decide_eq_true_iff fun hcap =>
    address_then (h.vsWordsExist (Nat.le_of_not_lt hcap)) rfl

omit h in
theorem execVsize_eq : execVsize v s = .next (s.succeed (result0 (resultOf (s.vec.get v).size))) :=
  slot_then rfl

theorem execVget_eq : execVget v s = .next (s.afterChecks (checksOf (.vget v) s)
    (s.succeed (result0 (resultOfBit ((s.vec.get v).vbit (s.argNat 0)))))) :=
  slot_then <| check_then (by simp) fun hi =>
    address_then (h.vecBitsExist (v := v) (by omega)) rfl

theorem execVset_eq : execVset v s = .next (s.afterChecks (checksOf (.vset v) s)
    ((s.setVec v ((s.vec.get v).vput (s.argNat 0) true)).succeed noResults)) :=
  slot_then <| check_then (by simp) fun hi =>
    address_then (h.vecBitsExist (v := v) (by omega)) rfl

theorem execVflip_eq : execVflip v s = .next (s.afterChecks (checksOf (.vflip v) s)
    ((s.setVec v ((s.vec.get v).vput (s.argNat 0) (!(s.vec.get v).vbit (s.argNat 0)))).succeed noResults)) :=
  slot_then <| check_then (by simp) fun hi =>
    address_then (h.vecBitsExist (v := v) (by omega)) rfl

theorem execVappend_eq : execVappend v s = .next (s.afterChecks (checksOf (.vappend v) s)
    ((s.setVec v ((s.vec.get v).append (s.arg.get 0) (s.argNat 1))).succeed
      (result0 (resultOf ((s.vec.get v).size + s.argNat 1))))) :=
  slot_then <| check_then decide_eq_true_iff fun _ => check_then (by simp) fun hcap =>
    address_then (h.vsBitsExist (Nat.le_of_not_lt hcap)) rfl

theorem execVrdbits_eq : execVrdbits v s = .next (s.afterChecks (checksOf (.vrdbits v) s)
    (s.succeed (result0 ((s.vec.get v).field (s.argNat 0) (s.argNat 1))))) :=
  slot_then <| check_then decide_eq_true_iff fun _ => check_then (by simp) fun hb =>
    address_then (h.vecBitsExist hb) rfl

theorem execVxor_eq : execVxor v u s = .next (s.afterChecks (checksOf (.vxor v u) s)
    ((s.setVec v ((s.vec.get v).xor (s.vec.get u))).succeed noResults)) :=
  slot_then <| slot_then <| check_then (by simp) fun _ =>
    address_then (h.vsWordsExist (h.vecSize_le v)) rfl

theorem execVtobytes_eq : execVtobytes v s = .next (s.afterChecks (checksOf (.vtobytes v) s)
    (State.succeed { s with bb := (s.vec.get v).serialise (s.argNat 0) (s.argNat 1) (s.argNat 2) s.bb }
      (result0 (resultOf (s.argNat 2))))) :=
  slot_then <| check_then (by simp) fun hb => check_then decide_eq_true_iff fun _ =>
    address_then (h.vecBitsExist hb) rfl

end

/-! ### The matrix commands -/

/-- The results of a search: found, `x` and `y`, or all 0 (R169, R170). -/
def foundResults : Option (Nat × Nat) → Quad Word
  | none => noResults
  | some (x, y) => results3 1#32 (resultOf x) (resultOf y)

/-- The matrix with every bit of the region set (R165). -/
def MatSlot.fill (d : MatSlot) (region : Nat → Nat → Bool) : MatSlot :=
  d.rewrite fun x y => region x y || d.mbit x y

/-- The matrix rotated by 180 degrees (R168). -/
def MatSlot.rotate (d : MatSlot) : MatSlot := d.rewrite fun x y => d.mbit (d.width - 1 - x) (d.height - 1 - y)

/-- Row `y` of the matrix as a vector (R166). -/
def MatSlot.rowVector (d : MatSlot) (y : Nat) : VecSlot :=
  { size := d.width, words := WordMem.writeRun [] 0 (fun j => d.words.read (y * d.stride + j)) d.stride }

/-- The matrix with row `y` replaced by a vector (R167). -/
def MatSlot.setRow (d : MatSlot) (y : Nat) (v : VecSlot) : MatSlot :=
  { d with words := d.words.writeRun (y * d.stride) (fun j => v.words.read j) d.stride }

section
variable {s : State} (h : s.Inv) (m v : Fin 4)
include h

omit h in
theorem execMinit_eq : execMinit m s = .next (s.afterChecks (checksOf (.minit m) s)
    ((s.setMat m { width := s.argNat 0, height := s.argNat 1, stride := ceilDiv32 (s.argNat 0), words := [] }).succeed
      (results3 (resultOf (s.argNat 0)) (resultOf (s.argNat 1)) (resultOf (ceilDiv32 (s.argNat 0)))))) :=
  slot_then <| check_then (by simp [or_assoc]) fun _ => check_then decide_eq_true_iff fun _ => rfl

omit h in
theorem execMdim_eq : execMdim m s = .next (s.succeed (results3 (resultOf (s.mat.get m).width)
    (resultOf (s.mat.get m).height) (resultOf (s.mat.get m).stride))) :=
  slot_then rfl

theorem execMget_eq : execMget m s = .next (s.afterChecks (checksOf (.mget m) s)
    (s.succeed (result0 (resultOfBit ((s.mat.get m).mbit (s.argNat 0) (s.argNat 1)))))) :=
  slot_then <| check_then (unconfigured_iff s m) fun _ => check_then (outside_iff s m _ _) fun hxy =>
    have ⟨hx, hy⟩ := inside_of_not_outside hxy
    address_then (h.msWordExists m hx hy) rfl

theorem execMset_eq : execMset m s = .next (s.afterChecks (checksOf (.mset m) s)
    ((s.setMat m ((s.mat.get m).mput (s.argNat 0) (s.argNat 1) true)).succeed noResults)) :=
  slot_then <| check_then (unconfigured_iff s m) fun _ => check_then (outside_iff s m _ _) fun hxy =>
    have ⟨hx, hy⟩ := inside_of_not_outside hxy
    address_then (h.msWordExists m hx hy) rfl

theorem execMflip_eq : execMflip m s = .next (s.afterChecks (checksOf (.mflip m) s)
    ((s.setMat m ((s.mat.get m).mput (s.argNat 0) (s.argNat 1)
      (!(s.mat.get m).mbit (s.argNat 0) (s.argNat 1)))).succeed noResults)) :=
  slot_then <| check_then (unconfigured_iff s m) fun _ => check_then (outside_iff s m _ _) fun hxy =>
    have ⟨hx, hy⟩ := inside_of_not_outside hxy
    address_then (h.msWordExists m hx hy) rfl

theorem execMfill_eq : execMfill m s = .next (s.afterChecks (checksOf (.mfill m) s)
    ((s.setMat m ((s.mat.get m).fill (inRegion (s.argNat 0) (s.argNat 1) (s.argNat 2) (s.argNat 3)))).succeed
      noResults)) :=
  slot_then <| check_then (unconfigured_iff s m) fun _ => check_then (by simp [or_assoc]) fun _ =>
    check_then (by simp) fun _ => address_then (h.msLiveExist m) rfl

theorem execMgetrow_eq : execMgetrow m v s = .next (s.afterChecks (checksOf (.mgetrow m v) s)
    ((s.setVec v ((s.mat.get m).rowVector (s.argNat 0))).succeed (result0 (resultOf (s.mat.get m).width)))) :=
  slot_then <| slot_then <| check_then (unconfigured_iff s m) fun _ =>
    check_then (by simp) fun hy => check_then (by simp) fun hcap =>
      address_then (h.msRowExists m (Nat.lt_of_not_le hy)) <|
        address_then (h.rowFitsVector (Nat.le_of_not_lt hcap)) rfl

theorem execMsetrow_eq : execMsetrow m v s = .next (s.afterChecks (checksOf (.msetrow m v) s)
    ((s.setMat m ((s.mat.get m).setRow (s.argNat 0) (s.vec.get v))).succeed noResults)) :=
  slot_then <| slot_then <| check_then (unconfigured_iff s m) fun _ =>
    check_then (by simp) fun hy => check_then (by simp) fun hsize =>
      have hcap : (s.mat.get m).width ≤ s.params.vcapBits := not_not.1 hsize ▸ h.vecSize_le v
      address_then (h.msRowExists m (Nat.lt_of_not_le hy)) <| address_then (h.rowFitsVector hcap) rfl

theorem execMrot180_eq : execMrot180 m s = .next (s.afterChecks (checksOf (.mrot180 m) s)
    ((s.setMat m (s.mat.get m).rotate).succeed noResults)) :=
  slot_then <| check_then (unconfigured_iff s m) fun _ => address_then (h.msLiveExist m) rfl

theorem execMtop_eq : execMtop m s = .next (s.afterChecks (checksOf (.mtop m) s)
    (s.succeed (foundResults (s.mat.get m).topBit))) :=
  slot_then <| check_then (unconfigured_iff s m) fun _ => address_then (h.msLiveExist m) <| by
    split <;> simp only [foundResults, State.afterChecks_nil, *]

theorem execMbot_eq : execMbot m s = .next (s.afterChecks (checksOf (.mbot m) s)
    (s.succeed (foundResults (s.mat.get m).bottomBit))) :=
  slot_then <| check_then (unconfigured_iff s m) fun _ => address_then (h.msLiveExist m) <| by
    split <;> simp only [foundResults, State.afterChecks_nil, *]

theorem execMrect_eq : execMrect m s = .next (s.afterChecks (checksOf (.mrect m) s)
    (s.succeed (s.mat.get m).enclosingRect)) :=
  slot_then <| check_then (unconfigured_iff s m) fun _ => address_then (h.msLiveExist m) rfl

end

end Sys2Proof.Machine
end

section
/-! PROOFS. Writing what is already there changes nothing: storage, and the updates of the state, done a second time. -/

namespace Sys2Proof.Machine

/-! ### Storage -/

/-- Canonical storages with the same bits are the same. -/
theorem WordMem.ext_bit {m n : WordMem} (hm : m.wf) (hn : n.wf) (h : ∀ j, ∀ k < 32, m.bit j k = n.bit j k) : m = n :=
  WordMem.ext_read hm hn fun j => WordMem.read_eq_of_bits (h j)

theorem WordMem.putBit_of_bit {m : WordMem} (h : m.wf) {j k : Nat} (hk : k < 32) {b : Bool} (hb : m.bit j k = b) :
    m.putBit j k b = m := by
  refine WordMem.ext_bit (WordMem.wf_putBit h _ _ _) h fun i l _ => ?_
  rw [WordMem.bit_putBit _ _ _ _ _ _ hk]
  split
  · next e => rw [e.1, e.2, hb]
  · rfl

theorem WordMem.writeRun_of_read {m : WordMem} (h : m.wf) {base n : Nat} {f : Nat → Word}
    (hf : ∀ j < n, m.read (base + j) = f j) : m.writeRun base f n = m := by
  refine WordMem.ext_read (WordMem.wf_writeRun h _ _ _) h fun i => ?_
  rw [WordMem.read_writeRun]
  split
  · rw [← hf (i - base) (by omega), Nat.add_sub_cancel' (by omega)]
  · rfl

theorem ByteMem.writeRun_of_byteAt? {m : ByteMem} (h : ByteMem.wf m) {base n : Nat} {f : Nat → Byte}
    (hf : ∀ j < n, ByteMem.byteAt? m (base + j) = some (f j)) : ByteMem.writeRun m base f n = m := by
  refine Sparse.ext_cellAt (ByteMem.wf_writeRun h _ _ _) h fun i => ?_
  refine (ByteMem.byteAt?_writeRun m base f n i).trans ?_
  split
  · rw [← hf (i - base) (by omega), Nat.add_sub_cancel' (by omega)]
    rfl
  · rfl

/-- Writing the same bit a second time. -/
theorem WordMem.putBit_putBit {m : WordMem} (h : m.wf) (j : Nat) {k : Nat} (hk : k < 32) (b : Bool) :
    (m.putBit j k b).putBit j k b = m.putBit j k b :=
  WordMem.putBit_of_bit (WordMem.wf_putBit h j k b) hk (by rw [WordMem.bit_putBit _ _ _ _ _ _ hk, if_pos ⟨rfl, rfl⟩])

theorem VecSlot.vput_vput {d : VecSlot} (h : d.words.wf) (i : Nat) (b : Bool) :
    (d.vput i b).vput i b = d.vput i b :=
  congrArg (VecSlot.mk d.size) (WordMem.putBit_putBit h _ (Nat.mod_lt _ (by decide)) b)

theorem MatSlot.mput_mput {d : MatSlot} (h : d.words.wf) (x y : Nat) (b : Bool) :
    (d.mput x y b).mput x y b = d.mput x y b :=
  congrArg (MatSlot.mk d.width d.height d.stride) (WordMem.putBit_putBit h _ (Nat.mod_lt _ (by decide)) b)

/-- A bit of storage that is a logical bit, as the logical bit it is (20_memory.md R65). -/
theorem MatSlot.bit_eq_mbit (d : MatSlot) (j : Nat) {k : Nat} (hk : k < 32) :
    d.words.bit j k = d.mbit (32 * (j % d.stride) + k) (j / d.stride) := by
  have hword : j / d.stride * d.stride + (32 * (j % d.stride) + k) / 32 = j := by
    have := Nat.div_add_mod' j d.stride
    omega
  have hplace : (32 * (j % d.stride) + k) % 32 = k := by omega
  rw [MatSlot.mbit, MatSlot.wordIndex, hword, hplace]

/-- Well-formed matrices of the same dimensions with the same logical bits are the same. -/
theorem MatSlot.ext_mbit {p : Params} {d e : MatSlot} (hd : d.Ok p) (he : e.Ok p) (hdims : SameDims d e)
    (h : ∀ x < d.width, ∀ y < d.height, d.mbit x y = e.mbit x y) : d = e := by
  obtain ⟨_, hwf, hset⟩ := MatSlot.ok_iff.1 hd
  obtain ⟨_, hwf', hset'⟩ := MatSlot.ok_iff.1 he
  obtain ⟨hw, hh, hs⟩ := hdims
  have hwords : d.words = e.words := by
    refine WordMem.ext_bit hwf hwf' fun j k hk => ?_
    by_cases hin : d.Inside j k
    · have hy : j / d.stride < d.height := Nat.div_lt_of_lt_mul hin.1
      rw [d.bit_eq_mbit j hk, e.bit_eq_mbit j hk, ← hs]
      exact h _ hin.2 _ hy
    · have hin' : ¬e.Inside j k := by simpa only [MatSlot.Inside, hw, hh, hs] using hin
      rw [Bool.eq_false_iff.2 (mt (hset j k hk) hin), Bool.eq_false_iff.2 (mt (hset' j k hk) hin')]
  obtain ⟨width, height, stride, words⟩ := d
  simp only at hw hh hs hwords
  rw [hw, hh, hs, hwords]

theorem MatSlot.rewrite_of_mbit {p : Params} {d : MatSlot} (hd : d.Ok p) {f : Nat → Nat → Bool}
    (hf : ∀ x < d.width, ∀ y < d.height, f x y = d.mbit x y) : d.rewrite f = d :=
  MatSlot.ext_mbit (hd.rewrite f) hd ⟨rfl, rfl, rfl⟩ fun x hx y hy => by
    obtain ⟨hdims, _⟩ := hd
    rw [MatSlot.mbit_rewrite hdims.stride_eq f hx hy, hf x hx y hy]

/-- Filling the same region a second time. -/
theorem MatSlot.fill_fill {p : Params} {d : MatSlot} (hok : d.Ok p) (region : Nat → Nat → Bool) :
    (d.fill region).fill region = d.fill region := by
  have ⟨hdims, _⟩ := hok
  refine MatSlot.rewrite_of_mbit (d := d.fill region) (hok.rewrite _) fun x hx y hy => ?_
  rw [MatSlot.fill, MatSlot.mbit_rewrite hdims.stride_eq _ hx hy, ← Bool.or_assoc, Bool.or_self]

/-- Storing the same vector in the same row a second time. -/
theorem MatSlot.setRow_setRow {d : MatSlot} (h : d.words.wf) (y : Nat) (v : VecSlot) :
    (d.setRow y v).setRow y v = d.setRow y v := by
  have hread : ∀ j < d.stride, (d.setRow y v).words.read (y * d.stride + j) = v.words.read j := by
    intro j hj
    rw [MatSlot.setRow, WordMem.read_writeRun, if_pos (by omega), Nat.add_sub_cancel_left]
  rw [MatSlot.setRow]
  exact congrArg (MatSlot.mk _ _ _) (WordMem.writeRun_of_read (WordMem.wf_writeRun h _ _ _) hread)

/-- Serialising the same bits to the same place a second time. -/
theorem VecSlot.serialise_serialise (d : VecSlot) (off base n : Nat) {bb : ByteMem} (h : ByteMem.wf bb) :
    d.serialise off base n (d.serialise off base n bb) = d.serialise off base n bb := by
  refine ByteMem.writeRun_of_byteAt? (ByteMem.wf_writeRun h _ _ _) fun j hj => ?_
  refine (ByteMem.byteAt?_writeRun _ _ _ _ _).trans ?_
  rw [if_pos (by omega), Nat.add_sub_cancel_left]

/-! ### The state -/

theorem State.succeed_succeed (s : State) (r : Quad Word) : (s.succeed r).succeed r = s.succeed r := by
  have hstatus : statusOnSuccess (statusOnSuccess s.status) = statusOnSuccess s.status :=
    status_eq_of_fields (by simp) (by simp) (by simp) (by simp)
  simp only [State.succeed, hstatus]

theorem State.errclr_errclr (s : State) (r : Quad Word) :
    (s.clearFaultRecord.succeed r).clearFaultRecord.succeed r = s.clearFaultRecord.succeed r := by
  have hstatus : statusOnSuccess (statusOnErrClr (statusOnSuccess (statusOnErrClr s.status))) =
      statusOnSuccess (statusOnErrClr s.status) :=
    status_eq_of_fields (by simp) (by simp) (by simp) (by simp)
  simp only [State.succeed, State.clearFaultRecord, hstatus]

theorem errLogWith_statusOnFault (st : Word) (c : Cause) : errLogWith (statusOnFault st c) c = errLogWith st c := by
  rw [errLogWith, errLog_statusOnFault, errLogWith, BitVec.or_assoc, BitVec.or_self]

/-- The same fault a second time: `LASTERR` and the sticky bit are there, and the capture is that of the first (R285). -/
theorem State.takeFault_takeFault (s : State) (c : Cause) : (s.takeFault c).takeFault c = s.takeFault c := by
  have hfirst : firstErr (statusOnFault s.status c) ≠ 0#4 := by
    rw [firstErr_statusOnFault]
    split
    · exact c.code_ne_zero
    · assumption
  have hstatus : statusOnFault (statusOnFault s.status c) c = statusOnFault s.status c := by
    refine status_eq_of_fields (by simp) ?_ ?_ (by simp)
    · rw [firstErr_statusOnFault, if_neg hfirst]
    · rw [errLog_statusOnFault, errLogWith_statusOnFault, errLog_statusOnFault]
  simp only [State.takeFault, hstatus, hfirst, if_false]

theorem State.setVec_succeed_again (s : State) (v : Fin 4) {d d' : VecSlot} (r : Quad Word) (h : d' = d) :
    (((s.setVec v d).succeed r).setVec v d').succeed r = (s.setVec v d).succeed r := by
  have hset : ((s.setVec v d).succeed r).setVec v d = (s.setVec v d).succeed r := by
    simp [State.setVec, State.succeed]
  rw [h, hset, State.succeed_succeed]

theorem State.setMat_succeed_again (s : State) (m : Fin 4) {d d' : MatSlot} (r : Quad Word) (h : d' = d) :
    (((s.setMat m d).succeed r).setMat m d').succeed r = (s.setMat m d).succeed r := by
  have hset : ((s.setMat m d).succeed r).setMat m d = (s.setMat m d).succeed r := by
    simp [State.setMat, State.succeed]
  rw [h, hset, State.succeed_succeed]

theorem State.buffer_succeed_again (s : State) {bytes bytes' : ByteMem} (r : Quad Word) (h : bytes' = bytes) :
    State.succeed { State.succeed { s with bb := bytes } r with bb := bytes' } r =
      State.succeed { s with bb := bytes } r := by
  subst h
  exact State.succeed_succeed { s with bb := bytes' } r

end Sys2Proof.Machine
end

section
/-! PROOFS. Commands, steps and runs of well-formed states complete; and the commands of 20_memory.md R74, run twice. -/

namespace Sys2Proof.Machine

/-! ### Slot numbers -/

/-- A command on a slot answers only if the slot exists. -/
theorem answers_slotOk (a : Nat) (k : Fin 4 → Result) : Answers (fun _ => SlotOk a) (withSlot a k) :=
  answers_withSlot fun v ha _ _ => ha ▸ v.isLt

theorem answers_slotsOk (a b : Nat) (k : Fin 4 → Fin 4 → Result) :
    Answers (fun _ => SlotOk a ∧ SlotOk b) (withSlot a fun m => withSlot b (k m)) :=
  answers_withSlot fun v ha t ht => ⟨ha ▸ v.isLt, answers_slotOk b (k v) t ht⟩

/-- A command that answers a next state is well formed (30_encoding.md R102; log 9). -/
theorem wellFormed_of_exec {i : Instr} {s t : State} (h : exec i s = .next t) : i.WellFormed := by
  revert t
  change Answers (fun _ => i.WellFormed) (exec i s)
  cases i with
  | nop | errclr | sreset | brd => exact fun _ _ => trivial
  | vxor a b | mgetrow a b | msetrow a b =>
    dsimp only [exec]
    exact answers_slotsOk a b _
  | _ a =>
    dsimp only [exec]
    exact answers_slotOk a _

/-- A row of the opcode map gives a well-formed command for slot fields of two bits (30_encoding.md R101, R104). -/
theorem wellFormed_of_opcodeRow {op a b : Nat} {fmt : Format} {mk : Nat → Nat → Instr} (ha : SlotOk a) (hb : SlotOk b)
    (h : opcodeRow op = some (fmt, mk)) : (mk a b).WellFormed := by
  unfold opcodeRow at h
  split at h <;> cases h <;> simp [Instr.WellFormed, ha, hb]

theorem wellFormed_of_decode {cw : Word} {i : Instr} (h : decode cw = .ok i) : i.WellFormed := by
  unfold decode at h
  split at h
  · cases h
  · split at h
    · cases h
    · next hrow =>
      split at h
      · cases h
        exact wellFormed_of_opcodeRow (BitVec.isLt _) (BitVec.isLt _) hrow
      · cases h

/-! ### Completion -/

/-- A well-formed command in a well-formed state has a next state (20_memory.md R60, 60_exceptions.md R277). -/
theorem exec_completes {i : Instr} {s : State} (hi : i.WellFormed) (h : s.Inv) : ∃ t, exec i s = .next t := by
  cases i with
  | nop => exact ⟨_, execNop_eq⟩
  | errclr => exact ⟨_, execErrclr_eq⟩
  | sreset => exact ⟨_, execSreset_eq⟩
  | brd => exact ⟨_, execBrd_eq⟩
  | vinit a => exact ⟨_, execVinit_eq h ⟨a, hi⟩⟩
  | vsize a => exact ⟨_, execVsize_eq ⟨a, hi⟩⟩
  | vget a => exact ⟨_, execVget_eq h ⟨a, hi⟩⟩
  | vset a => exact ⟨_, execVset_eq h ⟨a, hi⟩⟩
  | vflip a => exact ⟨_, execVflip_eq h ⟨a, hi⟩⟩
  | vappend a => exact ⟨_, execVappend_eq h ⟨a, hi⟩⟩
  | vrdbits a => exact ⟨_, execVrdbits_eq h ⟨a, hi⟩⟩
  | vxor a b => exact ⟨_, execVxor_eq h ⟨a, hi.1⟩ ⟨b, hi.2⟩⟩
  | vtobytes a => exact ⟨_, execVtobytes_eq h ⟨a, hi⟩⟩
  | minit a => exact ⟨_, execMinit_eq ⟨a, hi⟩⟩
  | mdim a => exact ⟨_, execMdim_eq ⟨a, hi⟩⟩
  | mget a => exact ⟨_, execMget_eq h ⟨a, hi⟩⟩
  | mset a => exact ⟨_, execMset_eq h ⟨a, hi⟩⟩
  | mflip a => exact ⟨_, execMflip_eq h ⟨a, hi⟩⟩
  | mfill a => exact ⟨_, execMfill_eq h ⟨a, hi⟩⟩
  | mgetrow a b => exact ⟨_, execMgetrow_eq h ⟨a, hi.1⟩ ⟨b, hi.2⟩⟩
  | msetrow a b => exact ⟨_, execMsetrow_eq h ⟨a, hi.1⟩ ⟨b, hi.2⟩⟩
  | mrot180 a => exact ⟨_, execMrot180_eq h ⟨a, hi⟩⟩
  | mtop a => exact ⟨_, execMtop_eq h ⟨a, hi⟩⟩
  | mbot a => exact ⟨_, execMbot_eq h ⟨a, hi⟩⟩
  | mrect a => exact ⟨_, execMrect_eq h ⟨a, hi⟩⟩

theorem runCommandWord_completes {s : State} (h : s.Inv) (cw : Word) : ∃ t, runCommandWord cw s = .next t := by
  cases hd : decode cw with
  | ok i => rw [runCommandWord_ok hd]; exact exec_completes (wellFormed_of_decode hd) h
  | error e => exact ⟨_, runCommandWord_error hd s⟩

theorem writeReg_completes {s : State} (h : s.Inv) (r : Reg) (value : Word) : ∃ t, s.writeReg r value = .next t := by
  cases r with
  | cmd => exact runCommandWord_completes h value
  | _ => exact ⟨_, rfl⟩

/-- A defined event is performed (20_memory.md R71, R80). -/
theorem performEvent_completes {s : State} (h : s.Inv) {e : HostEvent} (he : e.WellFormed) :
    ∃ t, performEvent e s = .next t := by
  cases e with
  | write width offset value =>
    rw [performEvent, if_neg (not_not.2 he)]
    split
    · exact ⟨_, rfl⟩
    · exact writeReg_completes h _ value
  | read width offset =>
    rw [performEvent, if_neg (not_not.2 he)]
    split <;> exact ⟨_, rfl⟩
  | reset asserted =>
    cases asserted with
    | true => exact ⟨_, rfl⟩
    | false => rw [performEvent]; split <;> exact ⟨_, rfl⟩

/-- An access that is not an aligned 32-bit access of the block is refused, reset asserted or not (R71; log 10). -/
theorem performEvent_undefined {width offset : Nat} (h : ¬AccessOk width offset) (s : State) (value : Word) :
    performEvent (.write width offset value) s = .refused .undefinedAccess ∧
      performEvent (.read width offset) s = .refused .undefinedAccess :=
  ⟨if_pos h, if_pos h⟩

/-! ### Runs -/

/-- No command writes the list of waiting events. -/
theorem commandEffect_events {i : Instr} {s t : State} (h : CommandEffect i s t) : t.events = s.events := by
  cases h <;> rfl

theorem eventEffect_events {s t : State} (h : EventEffect s t) : t.events = s.events := by
  cases h with
  | @command cw i _ _ hc => exact commandEffect_events (s := { s with cmd := cw }) hc
  | _ => rfl

/-- A defined event that waits is performed: the state stays well formed and the other events wait. -/
theorem step_performs {s : State} (h : s.Inv) {e : HostEvent} {rest : List HostEvent} (hs : s.events = e :: rest)
    (he : e.WellFormed) : ∃ t, step s = .next t ∧ t.Inv ∧ t.events = rest := by
  obtain ⟨t, ht⟩ := performEvent_completes (s := { s with events := rest }) h he
  have heffect := performEvent_effect e _ t ht
  exact ⟨t, (step_event hs).trans ht, inv_of_eventEffect (s := { s with events := rest }) h heffect,
    eventEffect_events heffect⟩

theorem run_succ {M : Host.Core} {s t : M.State} (h : M.step s = .next t) (k : Nat) :
    M.run (k + 1) s = M.run k t := by
  rw [Host.Core.run, h]

/-- Every waiting event is performed, one step for each. -/
theorem run_events {events : List HostEvent} (he : ∀ e ∈ events, e.WellFormed) {s : State} (h : s.Inv)
    (hs : s.events = events) :
    ∃ t : State, Sys2Proof.core.run events.length s = .next t ∧ t.events = [] ∧ t.Inv := by
  induction events generalizing s with
  | nil => exact ⟨s, rfl, hs, h⟩
  | cons e rest ih =>
    obtain ⟨u, hstep, hinv, hu⟩ := step_performs h hs (he e List.mem_cons_self)
    obtain ⟨t, hrun, ht⟩ := ih (fun e' he' => he e' (List.mem_cons_of_mem _ he')) hinv hu
    exact ⟨t, (run_succ (M := Sys2Proof.core) hstep _).trans hrun, ht⟩

/-! ### Commands run twice -/

/-- No check looks at what a fault changes. -/
theorem checksOf_takeFault (i : Instr) (s : State) (c : Cause) : checksOf i (s.takeFault c) = checksOf i s := rfl

/-- No check looks at what a success without a write of storage changes. -/
theorem checksOf_succeed (i : Instr) (s : State) (r : Quad Word) : checksOf i (s.succeed r) = checksOf i s := rfl

/-- The command `i`, run again on a state it has just left, leaves that state. -/
def Repeats (i : Instr) (s : State) : Prop := ∀ t, exec i s = .next t → exec i t = .next t

/-- A command that makes its checks and then leaves `done` repeats, if on a state it has left it fails no new check and
leaves that state. -/
theorem repeats_of_again {i : Instr} {s : State} {done : State → State} (h : s.Inv)
    (hexec : ∀ u, u.Inv → exec i u = .next (u.afterChecks (checksOf i u) (done u)))
    (hchecks : checksOf i (done s) = checksOf i s) (hagain : done (done s) = done s) : Repeats i s := by
  intro t ht
  have hinv : t.Inv := inv_of_commandEffect h (exec_effect ht)
  have heq : s.afterChecks (checksOf i s) (done s) = t := by
    rw [hexec s h] at ht
    exact Host.Outcome.next.inj ht
  rw [hexec t hinv]
  congr 1
  cases hfirst : firstFailing (checksOf i s) with
  | some c =>
    rw [State.afterChecks_of_some hfirst] at heq
    subst heq
    rw [checksOf_takeFault, State.afterChecks_of_some hfirst, State.takeFault_takeFault]
  | none =>
    rw [State.afterChecks_of_none hfirst] at heq
    subst heq
    rw [hchecks, State.afterChecks_of_none hfirst, hagain]

section
variable {s : State} (h : s.Inv) (m v : Fin 4)
include h

/-- A pure query reads only what it does not write. -/
theorem repeats_query {i : Instr} {results : State → Quad Word}
    (hexec : ∀ u, u.Inv → exec i u = .next (u.afterChecks (checksOf i u) (u.succeed (results u))))
    (hresults : results (s.succeed (results s)) = results s) : Repeats i s :=
  repeats_of_again h hexec (checksOf_succeed i s _) (by rw [hresults, State.succeed_succeed])

omit h in
theorem repeats_nop : Repeats .nop s := by
  rintro _ ⟨⟩
  exact congrArg Host.Outcome.next (State.succeed_succeed _ _)

omit h in
theorem repeats_errclr : Repeats .errclr s := by
  rintro _ ⟨⟩
  exact congrArg Host.Outcome.next (State.errclr_errclr _ _)

omit h in
theorem repeats_sreset : Repeats .sreset s := by
  rintro _ ⟨⟩
  rfl

theorem repeats_vinit : Repeats (.vinit v) s :=
  repeats_of_again h (fun _ hu => execVinit_eq hu v) rfl (State.setVec_succeed_again _ _ _ rfl)

theorem repeats_vsize : Repeats (.vsize v) s :=
  repeats_query h (fun _ _ => execVsize_eq v) rfl

theorem repeats_vget : Repeats (.vget v) s := repeats_query h (fun _ hu => execVget_eq hu v) rfl

theorem repeats_vset : Repeats (.vset v) s := by
  have ⟨_, hwf, _⟩ := h.vecOk v
  refine repeats_of_again h (fun _ hu => execVset_eq hu v) ?_ (State.setVec_succeed_again _ _ _ ?_)
  · simp [checksOf, State.argNat]
  · simp [State.argNat, VecSlot.vput_vput hwf]

theorem repeats_vrdbits : Repeats (.vrdbits v) s := repeats_query h (fun _ hu => execVrdbits_eq hu v) rfl

theorem repeats_vtobytes : Repeats (.vtobytes v) s := by
  have ⟨hwf, _⟩ := h.bufferOk
  refine repeats_of_again h (fun _ hu => execVtobytes_eq hu v) rfl (State.buffer_succeed_again _ _ ?_)
  exact VecSlot.serialise_serialise _ _ _ _ hwf

theorem repeats_minit : Repeats (.minit m) s :=
  repeats_of_again h (fun _ _ => execMinit_eq m) rfl (State.setMat_succeed_again _ _ _ rfl)

theorem repeats_mdim : Repeats (.mdim m) s := repeats_query h (fun _ _ => execMdim_eq m) rfl

theorem repeats_mget : Repeats (.mget m) s := repeats_query h (fun _ hu => execMget_eq hu m) rfl

theorem repeats_mset : Repeats (.mset m) s := by
  have ⟨_, hwf, _⟩ := h.matOk m
  refine repeats_of_again h (fun _ hu => execMset_eq hu m) ?_ (State.setMat_succeed_again _ _ _ ?_)
  · simp [checksOf, unconfigured, outside, State.argNat]
  · simp [State.argNat, MatSlot.mput_mput hwf]

theorem repeats_mfill : Repeats (.mfill m) s := by
  refine repeats_of_again h (fun _ hu => execMfill_eq hu m) ?_ (State.setMat_succeed_again _ _ _ ?_)
  · simp [checksOf, unconfigured, State.argNat, MatSlot.fill]
  · simp [State.argNat, MatSlot.fill_fill (h.matOk m)]

theorem repeats_mgetrow : Repeats (.mgetrow m v) s :=
  repeats_of_again h (fun _ hu => execMgetrow_eq hu m v) rfl (State.setVec_succeed_again _ _ _ rfl)

theorem repeats_msetrow : Repeats (.msetrow m v) s := by
  have ⟨_, hwf, _⟩ := h.matOk m
  refine repeats_of_again h (fun _ hu => execMsetrow_eq hu m v) ?_ (State.setMat_succeed_again _ _ _ ?_)
  · simp [checksOf, unconfigured, State.argNat, MatSlot.setRow]
  · simp [State.argNat, MatSlot.setRow_setRow hwf]

theorem repeats_mtop : Repeats (.mtop m) s := repeats_query h (fun _ hu => execMtop_eq hu m) rfl

theorem repeats_mbot : Repeats (.mbot m) s := repeats_query h (fun _ hu => execMbot_eq hu m) rfl

theorem repeats_mrect : Repeats (.mrect m) s := repeats_query h (fun _ hu => execMrect_eq hu m) rfl

end

end Sys2Proof.Machine
end

section
/-! PROOFS. A byte appended to a vector, serialised and read from the buffer (20_memory.md R69). -/

namespace Sys2Proof.Machine

/-! ### Bits and bytes -/

/-- The bits appended are the low `n` bits of the value, the most significant first (R135). -/
theorem VecSlot.vbit_append (d : VecSlot) (value : Word) {n j : Nat} (hj : j < n) :
    (d.append value n).vbit (d.size + j) = value.getLsbD (n - 1 - j) := by
  refine (VecSlot.vbit_vputRun d d.size _ n (d.size + j)).trans ?_
  rw [if_pos (by omega), Nat.add_sub_cancel_left]

/-- A byte appended is the byte serialised from there: both put the most significant bit first (R135, R138). -/
theorem VecSlot.byteAt_append (d : VecSlot) (byte : Byte) : (d.append (byte.setWidth 32) 8).byteAt d.size = byte := by
  refine BitVec.eq_of_getLsbD_eq fun i hi => ?_
  have hbit := VecSlot.getLsbD_byteAt (d.append (byte.setWidth 32) 8) d.size (7 - i) (by omega)
  have hindex : 7 - (7 - i) = i := by omega
  rw [VecSlot.vbit_append d _ (by omega), hindex] at hbit
  have hi32 : i < 32 := by omega
  rw [hbit, BitVec.getLsbD_setWidth, decide_eq_true hi32, Bool.true_and]

theorem VecSlot.byteAt?_serialise (d : VecSlot) (off base : Nat) {n j : Nat} (bb : ByteMem) (hj : j < n) :
    ByteMem.byteAt? (d.serialise off base n bb) (base + j) = some (d.byteAt (off + 8 * j)) := by
  refine (ByteMem.byteAt?_writeRun bb base _ n (base + j)).trans ?_
  rw [if_pos (by omega), Nat.add_sub_cancel_left]

/-! ### The three commands, their checks passed -/

section
variable {s : State}

theorem exec_vappend_byte (h : s.Inv) (v : Fin 4) {byte : Byte} (hvalue : s.arg.get 0 = byte.setWidth 32)
    (hn : s.argNat 1 = 8) (hfits : (s.vec.get v).size + 8 ≤ s.params.vcapBits) :
    ∃ t, exec (.vappend v) s = .next t ∧ t.Inv ∧ t.params = s.params ∧
      t.vec.get v = (s.vec.get v).append (byte.setWidth 32) 8 := by
  have hexec : exec (.vappend v) s = _ := execVappend_eq h v
  rw [State.afterChecks_of_none (firstFailing_eq_none (by simp [checksOf, hn, hfits]))] at hexec
  exact ⟨_, hexec, inv_of_commandEffect h (exec_effect hexec), rfl, by simp [hvalue, hn]⟩

theorem exec_vtobytes_byte (h : s.Inv) (v : Fin 4) {off k : Nat} (hoff : s.argNat 0 = off) (hindex : s.argNat 1 = k)
    (hn : s.argNat 2 = 1) (hsize : off + 8 ≤ (s.vec.get v).size) (hk : k < s.params.bufBytes) :
    ∃ u, exec (.vtobytes v) s = .next u ∧ u.params = s.params ∧
      ByteMem.byteAt? u.bb k = some ((s.vec.get v).byteAt off) := by
  have hexec : exec (.vtobytes v) s = _ := execVtobytes_eq h v
  have hchecks : firstFailing (checksOf (.vtobytes v) s) = none :=
    firstFailing_eq_none (by simp [checksOf, hoff, hindex, hn, hsize, hk])
  rw [hoff, hindex, hn, State.afterChecks_of_none hchecks] at hexec
  exact ⟨_, hexec, rfl, VecSlot.byteAt?_serialise _ off k s.bb Nat.one_pos⟩

theorem exec_brd_written {k : Nat} (hindex : s.argNat 0 = k) (hk : k < s.params.bufBytes) {b : Byte}
    (hb : ByteMem.byteAt? s.bb k = some b) :
    ∃ w, exec .brd s = .next w ∧ lastErr w.status = 0#4 ∧ w.res.get 0 = b.setWidth 32 := by
  subst hindex
  have hexec : exec .brd s = _ := execBrd_eq
  rw [State.afterChecks_of_none (firstFailing_eq_none (by simp [checksOf, hk])), State.afterBrd_of_written hb] at hexec
  exact ⟨_, hexec, lastErr_statusOnSuccess _, rfl⟩

end

end Sys2Proof.Machine
end

section
/-! PROOFS. The obligations about completion and memory. -/

open Sys2Proof Sys2Proof.Machine

namespace Sys2Proof.Proofs

/-- Settles O16: every check of a command ends in a fault that is recorded, and every address it forms exists. -/
theorem stepNeverStops : Obligations.StepNeverStops := by
  intro s hinv hevent
  cases hs : s.events with
  | nil => exact ⟨s, step_idle hs⟩
  | cons e rest =>
    obtain ⟨t, ht, _⟩ := step_performs hinv hs (hevent e (by simp [hs]))
    exact ⟨t, ht⟩

/-- Settles O17, by induction on the list of waiting events. -/
theorem allWaitingEventsComplete : Obligations.AllWaitingEventsComplete :=
  fun _ hinv hevents => run_events hevents hinv rfl

/-- Settles O23: on a state the command has just left, the same check fails or none does, and what it writes is there. -/
theorem repeatedCommandsChangeNothing : Obligations.RepeatedCommandsChangeNothing := by
  intro i s t hinv hexec hlisted
  have hi := wellFormed_of_exec hexec
  suffices hrepeats : Repeats i s from hrepeats t hexec
  cases i with
  | brd | vflip | vappend | vxor | mflip | mrot180 => simp at hlisted
  | nop => exact repeats_nop
  | errclr => exact repeats_errclr
  | sreset => exact repeats_sreset
  | vinit a => exact repeats_vinit hinv ⟨a, hi⟩
  | vsize a => exact repeats_vsize hinv ⟨a, hi⟩
  | vget a => exact repeats_vget hinv ⟨a, hi⟩
  | vset a => exact repeats_vset hinv ⟨a, hi⟩
  | vrdbits a => exact repeats_vrdbits hinv ⟨a, hi⟩
  | vtobytes a => exact repeats_vtobytes hinv ⟨a, hi⟩
  | minit a => exact repeats_minit hinv ⟨a, hi⟩
  | mdim a => exact repeats_mdim hinv ⟨a, hi⟩
  | mget a => exact repeats_mget hinv ⟨a, hi⟩
  | mset a => exact repeats_mset hinv ⟨a, hi⟩
  | mfill a => exact repeats_mfill hinv ⟨a, hi⟩
  | mgetrow a b => exact repeats_mgetrow hinv ⟨a, hi.1⟩ ⟨b, hi.2⟩
  | msetrow a b => exact repeats_msetrow hinv ⟨a, hi.1⟩ ⟨b, hi.2⟩
  | mtop a => exact repeats_mtop hinv ⟨a, hi⟩
  | mbot a => exact repeats_mbot hinv ⟨a, hi⟩
  | mrect a => exact repeats_mrect hinv ⟨a, hi⟩

/-- Settles O54: `VAPPEND` and `VTOBYTES` agree which bit of the vector is which bit of the byte (R69). -/
theorem appendedByteIsReadFromBuffer : Obligations.AppendedByteIsReadFromBuffer := by
  intro s v byte k hinv hfits hk
  obtain ⟨_, _, hvcap, _, _, _, hbuf⟩ := hinv.legal
  have hsize : (BitVec.ofNat 32 (s.vec.get v).size).toNat = (s.vec.get v).size := toNat_resultOf (by omega)
  have hindex : (BitVec.ofNat 32 k).toNat = k := toNat_resultOf (by omega)
  obtain ⟨t, ht, htinv, htparams, htvec⟩ := exec_vappend_byte
    (s := { s with arg := ⟨byte.setWidth 32, 8#32, s.arg.q2, s.arg.q3⟩ }) hinv v rfl rfl hfits
  obtain ⟨u, hu, huparams, hubyte⟩ := exec_vtobytes_byte
    (s := { t with arg := ⟨BitVec.ofNat 32 (s.vec.get v).size, BitVec.ofNat 32 k, 1#32, s.arg.q3⟩ }) htinv v hsize
    hindex rfl (by rw [htvec]; rfl) (by rw [htparams]; exact hk)
  rw [htvec, VecSlot.byteAt_append] at hubyte
  obtain ⟨w, hw, hlast, hres⟩ := exec_brd_written (s := { u with arg := u.arg.set 0 (BitVec.ofNat 32 k) }) hindex
    (by rw [huparams, htparams]; exact hk) hubyte
  exact ⟨t, u, w, ht, hu, hw, hlast, hres⟩

/-- Settles O10. -/
theorem undefinedAccessRefused : Obligations.UndefinedAccessRefused := by
  intro s width offset value rest hundefined
  have hnot : ¬AccessOk width offset := by omega
  obtain ⟨hwrite, hread⟩ := performEvent_undefined hnot { s with events := rest } value
  exact ⟨fun hs => (step_event hs).trans hwrite, fun hs => (step_event hs).trans hread⟩

end Sys2Proof.Proofs
end

section
/-! PROOFS. Command words and their fields (30_encoding.md R101 to R106): the decoder told by the numbers in the fields of
the word, and the encoder its inverse. -/

namespace Sys2Proof

/-! ### The fields of a word as numbers -/

theorem opField_eq (cw : Word) : opField cw = cw.toNat % 256 := by
  simp [opField, BitVec.extractLsb'_toNat]

theorem slotFieldA_eq (cw : Word) : slotFieldA cw = cw.toNat / 2 ^ 8 % 4 := by
  simp [slotFieldA, BitVec.extractLsb'_toNat, Nat.shiftRight_eq_div_pow]

theorem slotFieldB_eq (cw : Word) : slotFieldB cw = cw.toNat / 2 ^ 10 % 4 := by
  simp [slotFieldB, BitVec.extractLsb'_toNat, Nat.shiftRight_eq_div_pow]

/-- Above bits 31:12 a word has no more bits. -/
theorem zField_eq (cw : Word) : zField cw = cw.toNat / 2 ^ 12 := by
  have hlt := cw.isLt
  simp only [zField, BitVec.extractLsb'_toNat, Nat.shiftRight_eq_div_pow]
  omega

theorem toNat_commandWord {op a b : Nat} (hop : op < 256) (ha : SlotOk a) (hb : SlotOk b) :
    (commandWord op a b).toNat = 2 ^ 10 * b + (2 ^ 8 * a + op) := by
  have hlow : op ||| a <<< 8 = 2 ^ 8 * a + op := by
    rw [Nat.or_comm, ← Nat.shiftLeft_add_eq_or_of_lt hop, Nat.shiftLeft_eq, Nat.mul_comm]
  have hword : op ||| a <<< 8 ||| b <<< 10 = 2 ^ 10 * b + (2 ^ 8 * a + op) := by
    rw [hlow, Nat.or_comm, ← Nat.shiftLeft_add_eq_or_of_lt (by omega), Nat.shiftLeft_eq, Nat.mul_comm b]
  rw [← hword]
  simp only [commandWord, BitVec.toNat_or, BitVec.toNat_shiftLeft, BitVec.toNat_ofNat, Nat.shiftLeft_eq]
  congr <;> omega

section
variable {op a b : Nat} (hop : op < 256) (ha : SlotOk a) (hb : SlotOk b)
include hop ha hb

theorem opField_commandWord : opField (commandWord op a b) = op := by
  rw [opField_eq, toNat_commandWord hop ha hb]
  omega

theorem slotFieldA_commandWord : slotFieldA (commandWord op a b) = a := by
  rw [slotFieldA_eq, toNat_commandWord hop ha hb]
  omega

theorem slotFieldB_commandWord : slotFieldB (commandWord op a b) = b := by
  rw [slotFieldB_eq, toNat_commandWord hop ha hb]
  omega

theorem zField_commandWord : zField (commandWord op a b) = 0 := by
  rw [zField_eq, toNat_commandWord hop ha hb]
  omega

end

theorem opField_lt (cw : Word) : opField cw < 256 := BitVec.isLt _

theorem slotOk_slotFieldA (cw : Word) : SlotOk (slotFieldA cw) := BitVec.isLt _

theorem slotOk_slotFieldB (cw : Word) : SlotOk (slotFieldB cw) := BitVec.isLt _

/-- A word whose bits 31:12 are zero is made of its other fields. -/
theorem commandWord_fields {cw : Word} (hz : zField cw = 0) :
    commandWord (opField cw) (slotFieldA cw) (slotFieldB cw) = cw := by
  refine BitVec.eq_of_toNat_eq ?_
  rw [toNat_commandWord (opField_lt cw) (slotOk_slotFieldA cw) (slotOk_slotFieldB cw), opField_eq, slotFieldA_eq,
    slotFieldB_eq]
  rw [zField_eq] at hz
  omega

/-! ### The opcode map -/

/-- The 25 opcodes of R104. -/
def opcodes : List Nat :=
  [0x00, 0x01, 0x02, 0x03, 0x10, 0x11, 0x12, 0x13, 0x14, 0x15, 0x16, 0x17, 0x18,
    0x20, 0x21, 0x22, 0x23, 0x24, 0x25, 0x26, 0x27, 0x28, 0x29, 0x2A, 0x2B]

/-- The opcodes of format `Z`, which use no slot field (R102). -/
def slotlessOpcodes : List Nat := [0x00, 0x01, 0x02, 0x03]

/-- The opcodes of formats `VV` and `MV`, the only ones that use field `B` (R102). -/
def pairOpcodes : List Nat := [0x17, 0x26, 0x27]

theorem opcode_lt {op : Nat} (h : op ∈ opcodes) : op < 256 := by
  revert op
  decide

/-- The formats of the opcode map (R104): which opcodes have a row, and which of them use the slot fields. -/
theorem opcodeRow_format {op : Nat} {fmt : Format} {mk : Nat → Nat → Instr} (h : opcodeRow op = some (fmt, mk)) :
    op ∈ opcodes ∧ (op ∈ slotlessOpcodes ↔ fmt = .Z) ∧ (op ∈ pairOpcodes ↔ fmt = .VV ∨ fmt = .MV) := by
  unfold opcodeRow at h
  split at h <;> cases h <;> decide

theorem exists_opcodeRow {op : Nat} (h : op ∈ opcodes) : ∃ fmt mk, opcodeRow op = some (fmt, mk) := by
  fin_cases h <;> exact ⟨_, _, rfl⟩

/-! ### The decoder and the encoder, by the opcode map -/

/-- The word decodes exactly if its bits 31:12 are zero, its opcode has a row and the row allows its slot fields, and then
to the command of the row (R106). -/
theorem decode_eq_ok_iff {cw : Word} {i : Instr} :
    decode cw = .ok i ↔ zField cw = 0 ∧ ∃ fmt mk, opcodeRow (opField cw) = some (fmt, mk) ∧
      fmt.slotsAllowed (slotFieldA cw) (slotFieldB cw) = true ∧ mk (slotFieldA cw) (slotFieldB cw) = i := by
  unfold decode
  by_cases hz : zField cw = 0
  · rcases hrow : opcodeRow (opField cw) with _ | ⟨fmt, mk⟩
    · simp [hz]
    · by_cases hslots : fmt.slotsAllowed (slotFieldA cw) (slotFieldB cw) = true <;> simp [hz, hslots]
  · simp [hz]

/-- A row of the map, with slots its format allows, is decoded from the word made of these fields. -/
theorem decode_commandWord {op a b : Nat} {fmt : Format} {mk : Nat → Nat → Instr} {i : Instr} (ha : SlotOk a)
    (hb : SlotOk b) (hrow : opcodeRow op = some (fmt, mk)) (hslots : fmt.slotsAllowed a b = true) (hi : mk a b = i) :
    decode (commandWord op a b) = .ok i := by
  have hop := opcode_lt (opcodeRow_format hrow).1
  rw [decode_eq_ok_iff, zField_commandWord hop ha hb, opField_commandWord hop ha hb,
    slotFieldA_commandWord hop ha hb, slotFieldB_commandWord hop ha hb]
  exact ⟨rfl, fmt, mk, hrow, hslots, hi⟩

/-- The encoder follows the opcode map: a row's command, with slots its format allows, is the word of its opcode and slots. -/
theorem encode_of_opcodeRow {op a b : Nat} {fmt : Format} {mk : Nat → Nat → Instr}
    (hrow : opcodeRow op = some (fmt, mk)) (hslots : fmt.slotsAllowed a b = true) :
    encode (mk a b) = commandWord op a b := by
  unfold opcodeRow at hrow
  split at hrow <;> cases hrow <;> simp_all [encode, Format.slotsAllowed]

theorem decode_encode {i : Instr} (hi : i.WellFormed) : decode (encode i) = .ok i := by
  have h0 : SlotOk 0 := by decide
  cases i with
  | nop | errclr | sreset | brd => exact decode_commandWord h0 h0 rfl rfl rfl
  | vxor a b | mgetrow a b | msetrow a b =>
    obtain ⟨ha, hb⟩ := hi
    exact decode_commandWord ha hb rfl rfl rfl
  | _ a => exact decode_commandWord hi h0 rfl rfl rfl

theorem encode_of_decode {cw : Word} {i : Instr} (h : decode cw = .ok i) : encode i = cw := by
  obtain ⟨hz, fmt, mk, hrow, hslots, rfl⟩ := decode_eq_ok_iff.1 h
  rw [encode_of_opcodeRow hrow hslots, commandWord_fields hz]

/-! ### The legal words, by number -/

/-- The opcode is listed and the slot fields its format does not use are zero (R105). -/
abbrev LegalFields (op a b : Nat) : Prop :=
  op ∈ opcodes ∧ (op ∈ slotlessOpcodes → a = 0) ∧ (op ∉ pairOpcodes → b = 0)

theorem Format.slotsAllowed_iff {fmt : Format} {a b : Nat} :
    fmt.slotsAllowed a b = true ↔ (fmt = .Z → a = 0) ∧ (¬(fmt = .VV ∨ fmt = .MV) → b = 0) := by
  cases fmt <;> simp [Format.slotsAllowed]

/-- `LegalFields` says of the numbers what the opcode map says. -/
theorem legalFields_iff {op a b : Nat} :
    LegalFields op a b ↔ ∃ fmt mk, opcodeRow op = some (fmt, mk) ∧ fmt.slotsAllowed a b = true := by
  constructor
  · rintro ⟨hop, hslots⟩
    obtain ⟨fmt, mk, hrow⟩ := exists_opcodeRow hop
    obtain ⟨_, hslotless, hpair⟩ := opcodeRow_format hrow
    rw [hslotless, hpair] at hslots
    exact ⟨fmt, mk, hrow, Format.slotsAllowed_iff.2 hslots⟩
  · rintro ⟨fmt, mk, hrow, hslots⟩
    obtain ⟨hop, hslotless, hpair⟩ := opcodeRow_format hrow
    rw [LegalFields, hslotless, hpair]
    exact ⟨hop, Format.slotsAllowed_iff.1 hslots⟩

theorem decodes_iff {cw : Word} :
    (∃ i, decode cw = .ok i) ↔ zField cw = 0 ∧ LegalFields (opField cw) (slotFieldA cw) (slotFieldB cw) := by
  rw [legalFields_iff]
  constructor
  · rintro ⟨i, h⟩
    obtain ⟨hz, fmt, mk, hrow, hslots, _⟩ := decode_eq_ok_iff.1 h
    exact ⟨hz, fmt, mk, hrow, hslots⟩
  · rintro ⟨hz, fmt, mk, hrow, hslots⟩
    exact ⟨_, decode_eq_ok_iff.2 ⟨hz, fmt, mk, hrow, hslots, rfl⟩⟩

theorem rejected_iff {cw : Word} : (∃ e, decode cw = .error e) ↔ ¬∃ i, decode cw = .ok i := by
  cases decode cw <;> simp

/-- What field `A` may hold. -/
def slotsA (op : Nat) : List Nat := if op ∈ slotlessOpcodes then [0] else List.range 4

/-- What field `B` may hold. -/
def slotsB (op : Nat) : List Nat := if op ∈ pairOpcodes then List.range 4 else [0]

theorem mem_slotsA {op a : Nat} : a ∈ slotsA op ↔ SlotOk a ∧ (op ∈ slotlessOpcodes → a = 0) := by
  unfold slotsA
  split
  · next h => simp only [List.mem_singleton, h, true_implies]; omega
  · next h => simp [h]

theorem mem_slotsB {op b : Nat} : b ∈ slotsB op ↔ SlotOk b ∧ (op ∉ pairOpcodes → b = 0) := by
  unfold slotsB
  split
  · next h => simp [h]
  · next h => simp only [List.mem_singleton, h, not_false_eq_true, true_implies]; omega

theorem nodup_slotsA (op : Nat) : (slotsA op).Nodup := by
  unfold slotsA
  split <;> decide

theorem nodup_slotsB (op : Nat) : (slotsB op).Nodup := by
  unfold slotsB
  split <;> decide

/-- The fields `OP`, `A` and `B` of the legal words. -/
def legalFields : List (Σ _ : Nat, Nat × Nat) := opcodes.sigma fun op => slotsA op ×ˢ slotsB op

theorem mem_legalFields {op a b : Nat} : ⟨op, a, b⟩ ∈ legalFields ↔ SlotOk a ∧ SlotOk b ∧ LegalFields op a b := by
  rw [legalFields, List.mem_sigma, List.mem_product, mem_slotsA, mem_slotsB]
  tauto

theorem nodup_legalFields : legalFields.Nodup :=
  (by decide : opcodes.Nodup).sigma fun op => (nodup_slotsA op).product (nodup_slotsB op)

/-- Counted opcode by opcode: `4 + (8 + 10) · 4 + (1 + 2) · 16` (R106). -/
theorem length_legalFields : legalFields.length = 124 := by
  rw [legalFields, List.length_sigma]
  decide

/-- The legal command words. -/
def legalWords : List Word := legalFields.map fun f => commandWord f.1 f.2.1 f.2.2

theorem mem_legalWords {cw : Word} : cw ∈ legalWords ↔ ∃ i, decode cw = .ok i := by
  rw [decodes_iff, legalWords, List.mem_map]
  constructor
  · rintro ⟨⟨op, a, b⟩, hmem, rfl⟩
    obtain ⟨ha, hb, hlegal⟩ := mem_legalFields.1 hmem
    have hop := opcode_lt hlegal.1
    rw [opField_commandWord hop ha hb, slotFieldA_commandWord hop ha hb, slotFieldB_commandWord hop ha hb]
    exact ⟨zField_commandWord hop ha hb, hlegal⟩
  · rintro ⟨hz, hlegal⟩
    exact ⟨_, mem_legalFields.2 ⟨slotOk_slotFieldA cw, slotOk_slotFieldB cw, hlegal⟩, commandWord_fields hz⟩

/-- Different fields make different words. -/
theorem nodup_legalWords : legalWords.Nodup := by
  refine nodup_legalFields.map_on ?_
  rintro ⟨op, a, b⟩ hmem ⟨op', a', b'⟩ hmem' heq
  obtain ⟨ha, hb, hlegal⟩ := mem_legalFields.1 hmem
  obtain ⟨ha', hb', hlegal'⟩ := mem_legalFields.1 hmem'
  have hnum := congrArg BitVec.toNat heq
  have hop := opcode_lt hlegal.1
  have hop' := opcode_lt hlegal'.1
  rw [toNat_commandWord hop ha hb, toNat_commandWord hop' ha' hb'] at hnum
  obtain ⟨rfl, rfl, rfl⟩ : op = op' ∧ a = a' ∧ b = b' := by omega
  rfl

end Sys2Proof
end

section
/-! PROOFS. A command line's accesses, run (30_encoding.md R110); and slot numbers that no command word encodes. -/

namespace Sys2Proof.Machine

/-! ### A slot number above 3 -/

theorem withSlot_refused {a : Nat} (h : ¬SlotOk a) (k : Fin 4 → Result) : withSlot a k = .refused .noSuchSlot :=
  withSlot_of_ge (Nat.le_of_not_lt h) k

theorem withSlots_refused {a b : Nat} (h : ¬(SlotOk a ∧ SlotOk b)) (k : Fin 4 → Fin 4 → Result) :
    (withSlot a fun m => withSlot b (k m)) = .refused .noSuchSlot := by
  by_cases ha : SlotOk a
  · rw [withSlot_of_lt ha]
    exact withSlot_refused (fun hb => h ⟨ha, hb⟩) _
  · exact withSlot_refused ha _

theorem exec_refused {i : Instr} (hi : ¬i.WellFormed) (s : State) : exec i s = .refused .noSuchSlot := by
  cases i with
  | nop | errclr | sreset | brd => exact absurd trivial hi
  | vxor a b | mgetrow a b | msetrow a b =>
    dsimp only [exec]
    exact withSlots_refused hi _
  | _ a =>
    dsimp only [exec]
    exact withSlot_refused hi _

/-! ### Writes of operand registers -/

/-- The registers after these writes, the first made first. -/
def Quad.setAll {α : Type} (q : Quad α) (writes : List (Fin 4 × α)) : Quad α :=
  writes.foldl (fun q w => q.set w.1 w.2) q

@[simp] theorem Quad.setAll_nil {α : Type} (q : Quad α) : q.setAll [] = q := rfl

@[simp] theorem Quad.setAll_cons {α : Type} (q : Quad α) (w : Fin 4 × α) (writes : List (Fin 4 × α)) :
    q.setAll (w :: writes) = (q.set w.1 w.2).setAll writes := rfl

theorem Quad.get_setAll_of_notMem {α : Type} {q : Quad α} {writes : List (Fin 4 × α)} {k : Fin 4}
    (h : k ∉ writes.map Prod.fst) : (q.setAll writes).get k = q.get k := by
  induction writes generalizing q with
  | nil => rfl
  | cons w writes ih =>
    obtain ⟨hne, hk⟩ : k ≠ w.1 ∧ k ∉ writes.map Prod.fst := by simpa using h
    rw [Quad.setAll_cons, ih hk, Quad.get_set_ne _ _ hne]

/-- Of registers written once each, every one holds what was written to it. -/
theorem Quad.get_setAll_of_mem {α : Type} {q : Quad α} {writes : List (Fin 4 × α)} {k : Fin 4} {x : α}
    (hnodup : (writes.map Prod.fst).Nodup) (h : (k, x) ∈ writes) : (q.setAll writes).get k = x := by
  induction writes generalizing q with
  | nil => simp at h
  | cons w writes ih =>
    obtain ⟨hw, hnodup'⟩ := List.nodup_cons.1 hnodup
    rcases List.mem_cons.1 h with rfl | h'
    · rw [Quad.setAll_cons, Quad.get_setAll_of_notMem hw, Quad.get_set_self]
    · exact ih hnodup' h'

theorem accessOk_argOffset (k : Fin 4) : AccessOk 32 (argOffset k) := by
  revert k
  decide

/-- A waiting write of `ARGk` is performed (20_memory.md R80). -/
theorem step_argWrite {s : State} {k : Fin 4} {v : Word} {rest : List HostEvent}
    (h : s.events = .W (argOffset k) v :: rest) (hreset : s.inReset = false) :
    step s = .next { s with arg := s.arg.set k v, events := rest } := by
  rw [step_write h (accessOk_argOffset k) hreset, argOffset, regAt_arg, writeReg_arg]

/-- Waiting writes of operand registers are performed in order, one step for each. -/
theorem run_argWrites {writes : List (Fin 4 × Word)} {s : State} {rest : List HostEvent}
    (h : s.events = writes.map (fun w => HostEvent.W (argOffset w.1) w.2) ++ rest) (hreset : s.inReset = false) :
    Sys2Proof.core.run writes.length s = .next { s with arg := s.arg.setAll writes, events := rest } := by
  induction writes generalizing s with
  | nil =>
    obtain rfl : s.events = rest := h
    rfl
  | cons w writes ih =>
    refine (run_succ (M := Sys2Proof.core) (step_argWrite h hreset) _).trans ?_
    exact ih rfl hreset

/-! ### A command line -/

theorem nodup_operandRegs (i : Instr) : (operandRegs i).Nodup := by
  cases i <;> simp [operandRegs]

/-- The accesses of a line with all its operands are the writes of its operands, then that of `CMD` (R110). -/
theorem run_expandCommand {s : State} {i : Instr} {operands : List Word} {rest : List HostEvent}
    (hlength : operands.length = (operandRegs i).length) (hreset : s.inReset = false)
    (hevents : s.events = expandCommand i operands ++ rest) :
    Sys2Proof.core.run operands.length s = .next
      { s with arg := s.arg.setAll ((operandRegs i).zip operands), events := .W 0x20 (encode i) :: rest } := by
  have hcount : ((operandRegs i).zip operands).length = operands.length := by
    rw [List.length_zip, hlength, Nat.min_self]
  rw [expandCommand, List.append_assoc] at hevents
  rw [← hcount]
  exact run_argWrites hevents hreset

end Sys2Proof.Machine
end

section
/-! PROOFS. A command that succeeds does not depend on the operand registers it does not list (30_encoding.md R103,
70_reset_and_hazards.md R321): command by command, with other values in those registers it makes the same checks and
leaves the same state but for these registers. -/

namespace Sys2Proof.Machine

/-! ### Answers that agree but for the operand registers -/

/-- If the one answer is a success, the other is the same state but for the operand registers. -/
def AgreeOnSuccess (r r' : Result) : Prop :=
  ∀ t, r = .next t → lastErr t.status = 0#4 → ∃ arg', r' = .next { t with arg := arg' }

section
variable {r r' : Result}

theorem agree_next {t : State} (arg' : Quad Word) : AgreeOnSuccess (.next t) (.next { t with arg := arg' }) := by
  rintro _ ⟨⟩ _
  exact ⟨arg', rfl⟩

/-- The same check on both sides: a fault is no success, so only the rest counts. -/
theorem agree_check {b : Prop} [Decidable b] {s s' : State} {c : Cause} (h : ¬b → AgreeOnSuccess r r') :
    AgreeOnSuccess (if b then .next (s.takeFault c) else r) (if b then .next (s'.takeFault c) else r') := by
  split
  · rintro _ ⟨⟩ hsuccess
    rw [State.takeFault_status, lastErr_statusOnFault] at hsuccess
    exact absurd hsuccess c.code_ne_zero
  · next hb => exact h hb

/-- The model's stop at an address that does not exist is no success. -/
theorem agree_address {b : Prop} [Decidable b] {f f' : Fault} (h : AgreeOnSuccess r r') :
    AgreeOnSuccess (if b then .fault f else r) (if b then .fault f' else r') := by
  split
  · rintro _ ⟨⟩
  · exact h

theorem agree_withSlot {a : Nat} {k k' : Fin 4 → Result} (h : ∀ v, AgreeOnSuccess (k v) (k' v)) :
    AgreeOnSuccess (withSlot a k) (withSlot a k') := by
  intro t ht hsuccess
  obtain ⟨v, rfl, hk⟩ := withSlot_next ht
  rw [withSlot_val]
  exact h v t hk hsuccess

end

/-! ### Command by command -/

section
variable {s : State} {arg' : Quad Word} (a b : Nat)

/-- The operand registers in `ks` hold what they hold in `s`. -/
abbrev SameOperands (ks : List (Fin 4)) (s : State) (arg' : Quad Word) : Prop := ∀ k ∈ ks, arg'.get k = s.arg.get k

theorem argNat_same {ks : List (Fin 4)} (h : SameOperands ks s arg') (k : Fin 4) (hk : k ∈ ks := by decide) :
    State.argNat { s with arg := arg' } k = s.argNat k :=
  congrArg BitVec.toNat (h k hk)

theorem execBrd_agree (h : SameOperands [0] s arg') :
    AgreeOnSuccess (execBrd s) (execBrd { s with arg := arg' }) := by
  unfold execBrd
  rw [argNat_same h 0]
  refine agree_check fun _ => ?_
  dsimp only
  cases ByteMem.byteAt? s.bb (s.argNat 0) <;> exact agree_next arg'

theorem execVinit_agree (h : SameOperands [0] s arg') :
    AgreeOnSuccess (execVinit a s) (execVinit a { s with arg := arg' }) := by
  unfold execVinit
  rw [argNat_same h 0]
  exact agree_withSlot fun _ => agree_check fun _ => agree_check fun _ => agree_address <| agree_next arg'

theorem execVsize_agree : AgreeOnSuccess (execVsize a s) (execVsize a { s with arg := arg' }) :=
  agree_withSlot fun _ => agree_next arg'

theorem execVget_agree (h : SameOperands [0] s arg') :
    AgreeOnSuccess (execVget a s) (execVget a { s with arg := arg' }) := by
  unfold execVget
  rw [argNat_same h 0]
  exact agree_withSlot fun _ => agree_check fun _ => agree_address <| agree_next arg'

theorem execVset_agree (h : SameOperands [0] s arg') :
    AgreeOnSuccess (execVset a s) (execVset a { s with arg := arg' }) := by
  unfold execVset
  rw [argNat_same h 0]
  exact agree_withSlot fun _ => agree_check fun _ => agree_address <| agree_next arg'

theorem execVflip_agree (h : SameOperands [0] s arg') :
    AgreeOnSuccess (execVflip a s) (execVflip a { s with arg := arg' }) := by
  unfold execVflip
  rw [argNat_same h 0]
  exact agree_withSlot fun _ => agree_check fun _ => agree_address <| agree_next arg'

theorem execVappend_agree (h : SameOperands [0, 1] s arg') :
    AgreeOnSuccess (execVappend a s) (execVappend a { s with arg := arg' }) := by
  unfold execVappend
  dsimp only
  rw [h 0 (by decide), argNat_same h 1]
  exact agree_withSlot fun _ => agree_check fun _ => agree_check fun _ => agree_address <| agree_next arg'

theorem execVrdbits_agree (h : SameOperands [0, 1] s arg') :
    AgreeOnSuccess (execVrdbits a s) (execVrdbits a { s with arg := arg' }) := by
  unfold execVrdbits
  rw [argNat_same h 0, argNat_same h 1]
  exact agree_withSlot fun _ => agree_check fun _ => agree_check fun _ => agree_address <| agree_next arg'

theorem execVxor_agree : AgreeOnSuccess (execVxor a b s) (execVxor a b { s with arg := arg' }) :=
  agree_withSlot fun _ => agree_withSlot fun _ => agree_check fun _ => agree_address <| agree_next arg'

theorem execVtobytes_agree (h : SameOperands [0, 1, 2] s arg') :
    AgreeOnSuccess (execVtobytes a s) (execVtobytes a { s with arg := arg' }) := by
  unfold execVtobytes
  rw [argNat_same h 0, argNat_same h 1, argNat_same h 2]
  exact agree_withSlot fun _ => agree_check fun _ => agree_check fun _ => agree_address <| agree_next arg'

theorem execMinit_agree (h : SameOperands [0, 1] s arg') :
    AgreeOnSuccess (execMinit a s) (execMinit a { s with arg := arg' }) := by
  unfold execMinit
  rw [argNat_same h 0, argNat_same h 1]
  exact agree_withSlot fun _ => agree_check fun _ => agree_check fun _ => agree_next arg'

theorem execMdim_agree : AgreeOnSuccess (execMdim a s) (execMdim a { s with arg := arg' }) :=
  agree_withSlot fun _ => agree_next arg'

theorem execMget_agree (h : SameOperands [0, 1] s arg') :
    AgreeOnSuccess (execMget a s) (execMget a { s with arg := arg' }) := by
  unfold execMget
  rw [argNat_same h 0, argNat_same h 1]
  exact agree_withSlot fun _ => agree_check fun _ => agree_check fun _ => agree_address <| agree_next arg'

theorem execMset_agree (h : SameOperands [0, 1] s arg') :
    AgreeOnSuccess (execMset a s) (execMset a { s with arg := arg' }) := by
  unfold execMset
  rw [argNat_same h 0, argNat_same h 1]
  exact agree_withSlot fun _ => agree_check fun _ => agree_check fun _ => agree_address <| agree_next arg'

theorem execMflip_agree (h : SameOperands [0, 1] s arg') :
    AgreeOnSuccess (execMflip a s) (execMflip a { s with arg := arg' }) := by
  unfold execMflip
  rw [argNat_same h 0, argNat_same h 1]
  exact agree_withSlot fun _ => agree_check fun _ => agree_check fun _ => agree_address <| agree_next arg'

theorem execMfill_agree (h : SameOperands [0, 1, 2, 3] s arg') :
    AgreeOnSuccess (execMfill a s) (execMfill a { s with arg := arg' }) := by
  unfold execMfill
  rw [argNat_same h 0, argNat_same h 1, argNat_same h 2, argNat_same h 3]
  exact agree_withSlot fun _ => agree_check fun _ => agree_check fun _ => agree_check fun _ =>
    agree_address <| agree_next arg'

theorem execMgetrow_agree (h : SameOperands [0] s arg') :
    AgreeOnSuccess (execMgetrow a b s) (execMgetrow a b { s with arg := arg' }) := by
  unfold execMgetrow
  rw [argNat_same h 0]
  exact agree_withSlot fun _ => agree_withSlot fun _ => agree_check fun _ => agree_check fun _ =>
    agree_check fun _ => agree_address <| agree_address <| agree_next arg'

theorem execMsetrow_agree (h : SameOperands [0] s arg') :
    AgreeOnSuccess (execMsetrow a b s) (execMsetrow a b { s with arg := arg' }) := by
  unfold execMsetrow
  rw [argNat_same h 0]
  exact agree_withSlot fun _ => agree_withSlot fun _ => agree_check fun _ => agree_check fun _ =>
    agree_check fun _ => agree_address <| agree_address <| agree_next arg'

theorem execMrot180_agree : AgreeOnSuccess (execMrot180 a s) (execMrot180 a { s with arg := arg' }) :=
  agree_withSlot fun _ => agree_check fun _ => agree_address <| agree_next arg'

theorem execMtop_agree : AgreeOnSuccess (execMtop a s) (execMtop a { s with arg := arg' }) :=
  agree_withSlot fun _ => agree_check fun _ => agree_address <| by
    dsimp only
    split <;> exact agree_next arg'

theorem execMbot_agree : AgreeOnSuccess (execMbot a s) (execMbot a { s with arg := arg' }) :=
  agree_withSlot fun _ => agree_check fun _ => agree_address <| by
    dsimp only
    split <;> exact agree_next arg'

theorem execMrect_agree : AgreeOnSuccess (execMrect a s) (execMrect a { s with arg := arg' }) :=
  agree_withSlot fun _ => agree_check fun _ => agree_address <| agree_next arg'

end

/-! ### All commands -/

/-- No command that succeeds looks at an operand register it does not list. -/
theorem exec_agree {i : Instr} {s : State} {arg' : Quad Word} (h : SameOperands (operandRegs i) s arg') :
    AgreeOnSuccess (exec i s) (exec i { s with arg := arg' }) := by
  cases i with
  | nop | errclr => exact agree_next arg'
  | sreset => exact agree_next (Quad.fill 0#32)
  | brd => exact execBrd_agree h
  | vinit a => exact execVinit_agree a h
  | vsize a => exact execVsize_agree a
  | vget a => exact execVget_agree a h
  | vset a => exact execVset_agree a h
  | vflip a => exact execVflip_agree a h
  | vappend a => exact execVappend_agree a h
  | vrdbits a => exact execVrdbits_agree a h
  | vxor a b => exact execVxor_agree a b
  | vtobytes a => exact execVtobytes_agree a h
  | minit a => exact execMinit_agree a h
  | mdim a => exact execMdim_agree a
  | mget a => exact execMget_agree a h
  | mset a => exact execMset_agree a h
  | mflip a => exact execMflip_agree a h
  | mfill a => exact execMfill_agree a h
  | mgetrow a b => exact execMgetrow_agree a b h
  | msetrow a b => exact execMsetrow_agree a b h
  | mrot180 a => exact execMrot180_agree a
  | mtop a => exact execMtop_agree a
  | mbot a => exact execMbot_agree a
  | mrect a => exact execMrect_agree a

end Sys2Proof.Machine
end

section
/-! PROOFS. The obligations about the encoding and the operands. -/

open Sys2Proof Sys2Proof.Machine

namespace Sys2Proof.Proofs

/-- Settles O1: the fields of the word are those it was made of, and the opcode map gives the command back. -/
theorem decodeOfEncode : Obligations.DecodeOfEncode := fun _ => decode_encode

/-- Settles O2: a word with bits 31:12 zero is made of its other fields, and the encoder follows the opcode map. -/
theorem encodeOfDecode : Obligations.EncodeOfDecode :=
  fun _ _ h => ⟨wellFormed_of_decode h, encode_of_decode h⟩

/-- Settles O3: a word is legal exactly if it is made of one of the 124 legal triples of fields. -/
theorem legalWordsNumber124 : Obligations.LegalWordsNumber124 :=
  ⟨legalWords, nodup_legalWords, by rw [legalWords, List.length_map, length_legalFields], fun _ => mem_legalWords⟩

/-- Settles O4: `decodes_iff` negated, its fields read as numbers; and an illegal word only takes the fault. -/
theorem illegalCommandWords : Obligations.IllegalCommandWords := by
  refine ⟨fun cw => ?_, fun s cw ⟨e, he⟩ => ⟨_, runCommandWord_error he s, faults_takeFault _ _⟩⟩
  rw [rejected_iff, decodes_iff, opField_eq, slotFieldA_eq, slotFieldB_eq, zField_eq]
  simp only [LegalFields, opcodes, slotlessOpcodes, pairOpcodes]
  tauto

/-- Settles O5, by running the decoder on the ten words. -/
theorem sampleWordsDecode : Obligations.SampleWordsDecode := by
  unfold Obligations.SampleWordsDecode
  decide

/-- Settles O13: the writes of the operands, register by register, then O7 for the write of `CMD`. -/
theorem expandedLineRunsCommand : Obligations.ExpandedLineRunsCommand := by
  intro s i operands rest hi hlength hreset hevents
  have hregs : ((operandRegs i).zip operands).map Prod.fst = operandRegs i :=
    List.map_fst_zip (Nat.le_of_eq hlength.symm)
  refine ⟨_, run_expandCommand hlength hreset hevents, fun n k v hk hv => ?_, fun k hk => ?_, rfl, ?_⟩
  · exact Quad.get_setAll_of_mem (by rw [hregs]; exact nodup_operandRegs i)
      (List.mem_of_getElem? (List.getElem?_zip_eq_some.2 ⟨hk, hv⟩))
  · exact Quad.get_setAll_of_notMem (by rwa [hregs])
  · obtain ⟨_, hrun⟩ := stepRunsDecodedCommand
      { s with arg := s.arg.setAll ((operandRegs i).zip operands), events := .W 0x20 (encode i) :: rest }
      (encode i) i rest hreset rfl
    exact hrun (decode_encode hi)

/-- Settles O6: each slot is looked up before anything else is done. -/
theorem slotBeyondThreeRefused : Obligations.SlotBeyondThreeRefused := fun _ s hi => exec_refused hi s

/-- Settles O21: the two answers differ in the operand registers only. -/
theorem unlistedOperandsDoNotMatter : Obligations.UnlistedOperandsDoNotMatter := by
  intro i s t arg' hexec hsuccess hlisted
  obtain ⟨arg'', hexec'⟩ := exec_agree hlisted t hexec hsuccess
  exact ⟨_, hexec', rfl, rfl, rfl, rfl, rfl, rfl, rfl, rfl⟩

end Sys2Proof.Proofs
end

section
/-! PROOFS. The logical bits of a vector under the vector commands (40_vector_commands.md R130 to R138), and a bit of a
vector or a matrix inverted twice (R134; 41_matrix_commands.md R164). -/

namespace Sys2Proof.Machine

/-! ### The bits of a vector -/

theorem VecSlot.vbit_zeros (size i : Nat) : VecSlot.vbit { size := size, words := [] } i = false := by
  simp [VecSlot.vbit, WordMem.bit]

/-- The bits before the appended ones stay (R135). -/
theorem VecSlot.vbit_append_of_lt (d : VecSlot) (value : Word) (n : Nat) {i : Nat} (hi : i < d.size) :
    (d.append value n).vbit i = d.vbit i := by
  refine (VecSlot.vbit_vputRun d d.size _ n i).trans ?_
  rw [if_neg (by omega)]

/-- A field of `n` bits is a number below `2^n` (R136). -/
theorem VecSlot.field_lt (d : VecSlot) (off n : Nat) : (d.field off n).toNat < 2 ^ n := by
  refine Nat.lt_pow_two_of_testBit _ fun k hk => ?_
  rw [BitVec.testBit_toNat, VecSlot.getLsbD_field, decide_eq_false (by omega), Bool.false_and]

/-- The bit of lowest index is the most significant of the field (R136). -/
theorem VecSlot.getLsbD_field_rev (d : VecSlot) (off : Nat) {n k : Nat} (hn : n ≤ 32) (hk : k < n) :
    (d.field off n).getLsbD (n - 1 - k) = d.vbit (off + k) := by
  have hindex : n - 1 - (n - 1 - k) = k := by omega
  rw [VecSlot.getLsbD_field, decide_eq_true (by omega), Bool.true_and, hindex]

/-- The field read where `n` bits were appended is the low `n` bits of the value: R136 takes the bits in the order in
which R135 puts them. -/
theorem VecSlot.field_append (d : VecSlot) (value : Word) {n : Nat} (hn : n ≤ 32) :
    ((d.append value n).field d.size n).toNat = value.toNat % 2 ^ n := by
  refine Nat.eq_of_testBit_eq fun k => ?_
  rw [BitVec.testBit_toNat, VecSlot.getLsbD_field, Nat.testBit_mod_two_pow, BitVec.testBit_toNat]
  by_cases hk : k < n
  · have hindex : n - 1 - (n - 1 - k) = k := by omega
    rw [VecSlot.vbit_append d value (by omega), hindex, decide_eq_true (by omega), decide_eq_true hk]
  · rw [decide_eq_false (by omega), decide_eq_false hk, Bool.false_and, Bool.false_and]

/-- A live word of the XOR is the XOR of the words, any other stays (R137). -/
theorem VecSlot.read_xor (d c : VecSlot) (j : Nat) : (d.xor c).words.read j =
    if j < ceilDiv32 d.size then d.words.read j ^^^ c.words.read j else d.words.read j := by
  simp [VecSlot.xor, WordMem.read_writeRun]

/-- R137 in logical bits. -/
theorem VecSlot.vbit_xor (d c : VecSlot) {i : Nat} (hi : i < d.size) :
    (d.xor c).vbit i = (d.vbit i != c.vbit i) := by
  simp only [VecSlot.vbit, WordMem.bit]
  rw [VecSlot.read_xor, if_pos (lt_ceilDiv32 hi), BitVec.getLsbD_xor, Bool.bne_eq_xor]

/-- XOR with the same vector a second time restores every word. -/
theorem VecSlot.xor_xor {d : VecSlot} (h : d.words.wf) (c : VecSlot) : (d.xor c).xor c = d := by
  have hwords : ((d.xor c).xor c).words = d.words := by
    refine WordMem.ext_read (WordMem.wf_writeRun (WordMem.wf_writeRun h _ _ _) _ _ _) h fun j => ?_
    have hsize : (d.xor c).size = d.size := rfl
    rw [VecSlot.read_xor, VecSlot.read_xor, hsize]
    split
    · rw [BitVec.xor_assoc, BitVec.xor_self, BitVec.xor_zero]
    · rfl
  exact congrArg (VecSlot.mk d.size) hwords

/-! ### A bit written and written back -/

theorem WordMem.putBit_restore {m : WordMem} (h : m.wf) (j : Nat) {k : Nat} (hk : k < 32) (b : Bool) :
    (m.putBit j k b).putBit j k (m.bit j k) = m := by
  refine WordMem.ext_bit (WordMem.wf_putBit (WordMem.wf_putBit h _ _ _) _ _ _) h fun i l _ => ?_
  rw [WordMem.bit_putBit _ _ _ _ _ _ hk, WordMem.bit_putBit _ _ _ _ _ _ hk]
  split
  · next e => rw [e.1, e.2]
  · rfl

theorem VecSlot.vput_restore {d : VecSlot} (h : d.words.wf) (i : Nat) (b : Bool) :
    (d.vput i b).vput i (d.vbit i) = d :=
  congrArg (VecSlot.mk d.size) (WordMem.putBit_restore h _ (Nat.mod_lt _ (by decide)) b)

theorem MatSlot.mput_restore {d : MatSlot} (h : d.words.wf) (x y : Nat) (b : Bool) :
    (d.mput x y b).mput x y (d.mbit x y) = d :=
  congrArg (MatSlot.mk d.width d.height d.stride) (WordMem.putBit_restore h _ (Nat.mod_lt _ (by decide)) b)

/-- One bit of a vector inverted (R134). -/
def VecSlot.flip (d : VecSlot) (i : Nat) : VecSlot := d.vput i (!d.vbit i)

/-- One bit of a matrix inverted (R164). -/
def MatSlot.flip (d : MatSlot) (x y : Nat) : MatSlot := d.mput x y (!d.mbit x y)

theorem VecSlot.flip_flip {d : VecSlot} (h : d.words.wf) (i : Nat) : (d.flip i).flip i = d := by
  have hbit : (d.flip i).vbit i = !d.vbit i := by rw [VecSlot.flip, VecSlot.vbit_vput, if_pos rfl]
  rw [VecSlot.flip, hbit, Bool.not_not]
  exact VecSlot.vput_restore h i _

theorem MatSlot.flip_flip {d : MatSlot} (h : d.words.wf) (hs : d.stride = ceilDiv32 d.width) {x : Nat}
    (hx : x < d.width) (y : Nat) : (d.flip x y).flip x y = d := by
  have hbit : (d.flip x y).mbit x y = !d.mbit x y := by
    rw [MatSlot.flip, MatSlot.mbit_mput hs _ hx hx, if_pos ⟨rfl, rfl⟩]
  rw [MatSlot.flip, hbit, Bool.not_not]
  exact MatSlot.mput_restore h x y _

/-! ### The byte buffer -/

theorem VecSlot.byteAt?_serialise_of_outside (d : VecSlot) (off : Nat) {base n q : Nat} (bb : ByteMem)
    (hq : q < base ∨ base + n ≤ q) :
    ByteMem.byteAt? (d.serialise off base n bb) q = ByteMem.byteAt? bb q := by
  refine (ByteMem.byteAt?_writeRun bb base _ n q).trans ?_
  rw [if_neg (by omega)]

end Sys2Proof.Machine
end

section
/-! PROOFS. The words of the commands with a slot (30_encoding.md R101), and the vector commands and `MFLIP` in a
well-formed state once their checks have passed. -/

namespace Sys2Proof.Machine

/-! ### Command words -/

/-- The word of an opcode that uses field `A` only, as the rules write it (30_encoding.md R101, R110). -/
theorem decode_slotA {op : Nat} {fmt : Format} {mk : Nat → Nat → Instr} {i : Instr} (v : Fin 4)
    (hrow : opcodeRow op = some (fmt, mk)) (hslots : fmt.slotsAllowed v 0 = true) (hi : mk v 0 = i) :
    decode (BitVec.ofNat 32 op ||| (BitVec.ofNat 32 v <<< 8)) = .ok i := by
  have hword : commandWord op v 0 = BitVec.ofNat 32 op ||| (BitVec.ofNat 32 v <<< 8) := by simp [commandWord]
  rw [← hword]
  exact decode_commandWord v.isLt (by decide) hrow hslots hi

/-- The word of an opcode that uses both slot fields. -/
theorem decode_slotAB {op : Nat} {fmt : Format} {mk : Nat → Nat → Instr} {i : Instr} (a b : Fin 4)
    (hrow : opcodeRow op = some (fmt, mk)) (hslots : fmt.slotsAllowed a b = true) (hi : mk a b = i) :
    decode (BitVec.ofNat 32 op ||| (BitVec.ofNat 32 a <<< 8) ||| (BitVec.ofNat 32 b <<< 10)) = .ok i :=
  decode_commandWord a.isLt b.isLt hrow hslots hi

/-! ### What a command answers, from its checks -/

section
variable {r : Result} {s done : State} {checks : List (Bool × Cause)}
  (hr : r = .next (s.afterChecks checks done))
include hr

/-- A failing check takes its fault. -/
theorem answer_faults {c : Cause} (h : firstFailing checks = some c) : ∃ t, r = .next t ∧ Faults s t c :=
  ⟨s.takeFault c, by rw [hr, State.afterChecks_of_some h], faults_takeFault s c⟩

/-- With no failing check the command leaves what its rule says. -/
theorem answer_passes (h : firstFailing checks = none) : r = .next done := by
  rw [hr, State.afterChecks_of_none h]

end

theorem succeeds_answer (s : State) (r : Quad Word) : Succeeds s (s.succeed r) r.q0 r.q1 r.q2 r.q3 :=
  succeeds_succeed r rfl rfl rfl rfl rfl rfl rfl rfl rfl

theorem succeeds_setVec (s : State) (v : Fin 4) (d : VecSlot) (r : Quad Word) :
    Succeeds s ((s.setVec v d).succeed r) r.q0 r.q1 r.q2 r.q3 :=
  succeeds_succeed r rfl rfl rfl rfl rfl rfl rfl rfl rfl

theorem vec_get_setVec (s : State) (v : Fin 4) (d : VecSlot) (r : Quad Word) :
    ((s.setVec v d).succeed r).vec.get v = d :=
  Quad.get_set_self _ _ _

@[simp] theorem argNat_succeed (s : State) (r : Quad Word) (k : Fin 4) : (s.succeed r).argNat k = s.argNat k := rfl
@[simp] theorem argNat_setVec (s : State) (v : Fin 4) (d : VecSlot) (k : Fin 4) :
    (s.setVec v d).argNat k = s.argNat k := rfl
@[simp] theorem argNat_setMat (s : State) (m : Fin 4) (d : MatSlot) (k : Fin 4) :
    (s.setMat m d).argNat k = s.argNat k := rfl

/-- An operand as a result is the operand register. -/
theorem resultOf_argNat (s : State) (k : Fin 4) : resultOf (s.argNat k) = s.arg.get k := by
  simp [resultOf, State.argNat]

/-! ### The commands, their checks passed -/

section
variable {s : State} (h : s.Inv) (v u : Fin 4)
include h

theorem exec_vinit_of_le (hsize : s.argNat 0 ≤ s.params.vcapBits) : exec (.vinit v) s =
    .next ((s.setVec v { size := s.argNat 0, words := [] }).succeed (result0 (s.arg.get 0))) := by
  obtain ⟨_, _, hvcap, _⟩ := h.legal
  have hneg : s.argNat 0 < 2 ^ 31 := by omega
  rw [← resultOf_argNat]
  exact answer_passes (execVinit_eq h v) (firstFailing_eq_none (by simpa [checksOf, hsize] using hneg))

theorem exec_vget_of_lt (hi : s.argNat 0 < (s.vec.get v).size) : exec (.vget v) s =
    .next (s.succeed (result0 (if (s.vec.get v).vbit (s.argNat 0) then 1#32 else 0#32))) := by
  rw [← resultOfBit_eq]
  exact answer_passes (execVget_eq h v) (firstFailing_eq_none (by simp [checksOf, hi]))

theorem exec_vset_of_lt (hi : s.argNat 0 < (s.vec.get v).size) : exec (.vset v) s =
    .next ((s.setVec v ((s.vec.get v).vput (s.argNat 0) true)).succeed noResults) :=
  answer_passes (execVset_eq h v) (firstFailing_eq_none (by simp [checksOf, hi]))

theorem exec_vflip_of_lt (hi : s.argNat 0 < (s.vec.get v).size) : exec (.vflip v) s =
    .next ((s.setVec v ((s.vec.get v).flip (s.argNat 0))).succeed noResults) :=
  answer_passes (execVflip_eq h v) (firstFailing_eq_none (by simp [checksOf, hi]))

theorem exec_vappend_of_le (hn : s.argNat 1 ≤ 32) (hfits : (s.vec.get v).size + s.argNat 1 ≤ s.params.vcapBits) :
    exec (.vappend v) s = .next ((s.setVec v ((s.vec.get v).append (s.arg.get 0) (s.argNat 1))).succeed
      (result0 (resultOf ((s.vec.get v).size + s.argNat 1)))) :=
  answer_passes (execVappend_eq h v) (firstFailing_eq_none (by simp [checksOf, hn, hfits]))

theorem exec_vrdbits_of_le {off n : Nat} (hoff : s.argNat 0 = off) (hcount : s.argNat 1 = n) (hn : n ≤ 32)
    (hb : off + n ≤ (s.vec.get v).size) :
    exec (.vrdbits v) s = .next (s.succeed (result0 ((s.vec.get v).field off n))) := by
  subst hoff hcount
  exact answer_passes (execVrdbits_eq h v) (firstFailing_eq_none (by simp [checksOf, hn, hb]))

theorem exec_vxor_of_size (hsize : (s.vec.get v).size = (s.vec.get u).size) : exec (.vxor v u) s =
    .next ((s.setVec v ((s.vec.get v).xor (s.vec.get u))).succeed noResults) :=
  answer_passes (execVxor_eq h v u) (firstFailing_eq_none (by simp [checksOf, hsize]))

theorem exec_vtobytes_of_le (hb : s.argNat 0 + 8 * s.argNat 2 ≤ (s.vec.get v).size)
    (hbuf : s.argNat 1 + s.argNat 2 ≤ s.params.bufBytes) : exec (.vtobytes v) s =
    .next (State.succeed { s with bb := (s.vec.get v).serialise (s.argNat 0) (s.argNat 1) (s.argNat 2) s.bb }
      (result0 (s.arg.get 2))) := by
  rw [← resultOf_argNat]
  exact answer_passes (execVtobytes_eq h v) (firstFailing_eq_none (by simp [checksOf, hb, hbuf]))

theorem exec_mflip_of_lt (m : Fin 4) (hx : s.argNat 0 < (s.mat.get m).width) (hy : s.argNat 1 < (s.mat.get m).height) :
    exec (.mflip m) s = .next ((s.setMat m ((s.mat.get m).flip (s.argNat 0) (s.argNat 1))).succeed noResults) := by
  have hconfigured : (s.mat.get m).width ≠ 0 := by omega
  exact answer_passes (execMflip_eq h m)
    (firstFailing_eq_none (by simp [checksOf, unconfigured, outside, hconfigured, hx, hy]))

end

end Sys2Proof.Machine
end

section
/-! PROOFS. The obligations about the vector commands. -/

open Sys2Proof Sys2Proof.Machine

namespace Sys2Proof.Proofs

/-- Settles O31: `vput` of a 1 changes one bit. -/
theorem vsetRule : Obligations.VsetRule := by
  intro s v hinv
  refine ⟨decode_slotA v rfl rfl rfl, fun hout => ?_, fun hi => ?_⟩
  · exact answer_faults (execVset_eq hinv v) (by simp [checksOf, firstFailing, hout])
  · refine ⟨_, exec_vset_of_lt hinv v hi, succeeds_setVec _ _ _ _, onlyVec_setVec _ _ _ _, ?_⟩
    rw [vec_get_setVec]
    refine ⟨rfl, ?_, fun i _ hne => ?_⟩
    · rw [VecSlot.vbit_vput, if_pos rfl]
    · rw [VecSlot.vbit_vput, if_neg hne]

/-- Settles O32: `vput` of the inverse changes one bit. -/
theorem vflipRule : Obligations.VflipRule := by
  intro s v hinv
  refine ⟨decode_slotA v rfl rfl rfl, fun hout => ?_, fun hi => ?_⟩
  · exact answer_faults (execVflip_eq hinv v) (by simp [checksOf, firstFailing, hout])
  · refine ⟨_, exec_vflip_of_lt hinv v hi, succeeds_setVec _ _ _ _, onlyVec_setVec _ _ _ _, ?_⟩
    rw [vec_get_setVec]
    refine ⟨rfl, ?_, fun i _ hne => ?_⟩
    · rw [VecSlot.flip, VecSlot.vbit_vput, if_pos rfl]
    · rw [VecSlot.flip, VecSlot.vbit_vput, if_neg hne]

/-- Settles O33: the run of `vput` starts at the old size, so the earlier bits stay. -/
theorem vappendRule : Obligations.VappendRule := by
  intro s v hinv
  refine ⟨decode_slotA v rfl rfl rfl, fun hn => ?_, fun hn hfull => ?_, fun hn hfits => ?_⟩
  · exact answer_faults (execVappend_eq hinv v) (by simp [checksOf, firstFailing, hn])
  · exact answer_faults (execVappend_eq hinv v) (by simp [checksOf, firstFailing, hn.not_gt, hfull])
  · obtain ⟨_, _, hvcap, _⟩ := hinv.legal
    refine ⟨_, _, exec_vappend_of_le hinv v hn hfits, succeeds_setVec _ _ _ _, onlyVec_setVec _ _ _ _,
      toNat_resultOf (by omega), ?_⟩
    rw [vec_get_setVec]
    exact ⟨rfl, fun i hi => VecSlot.vbit_append_of_lt _ _ _ hi, fun k hk => VecSlot.vbit_append _ _ hk⟩

/-- Settles O34: each step of the loop shifts the bits read before it up by one. -/
theorem vrdbitsRule : Obligations.VrdbitsRule := by
  intro s v hinv
  refine ⟨decode_slotA v rfl rfl rfl, fun hn => ?_, fun hn hout => ?_, fun hn hb => ?_⟩
  · exact answer_faults (execVrdbits_eq hinv v) (by simp [checksOf, firstFailing, hn])
  · exact answer_faults (execVrdbits_eq hinv v) (by simp [checksOf, firstFailing, hn.not_gt, hout])
  · exact ⟨_, _, exec_vrdbits_of_le hinv v rfl rfl hn hb, succeeds_answer _ _, sameStorage_succeed _ _,
      VecSlot.field_lt _ _ _, fun k hk => VecSlot.getLsbD_field_rev _ _ hn hk⟩

/-- Settles O35: word by word is bit by bit, and both slots are read before the destination is written. -/
theorem vxorRule : Obligations.VxorRule := by
  intro s d c hinv
  refine ⟨decode_slotAB d c rfl rfl rfl, fun hsize => ?_, fun hsize => ?_⟩
  · exact answer_faults (execVxor_eq hinv d c) (by simp [checksOf, firstFailing, bne_iff_ne.2 hsize])
  · refine ⟨_, exec_vxor_of_size hinv d c hsize, succeeds_setVec _ _ _ _, onlyVec_setVec _ _ _ _, ?_⟩
    rw [vec_get_setVec]
    exact ⟨rfl, fun i hi => VecSlot.vbit_xor _ _ hi⟩

/-- Settles O36: the run of byte writes puts `byteAt` of each eight bits in its byte and leaves the others. -/
theorem vtobytesRule : Obligations.VtobytesRule := by
  intro s v hinv
  refine ⟨decode_slotA v rfl rfl rfl, fun hout => ?_, fun hb hfull => ?_, fun hb hbuf => ?_⟩
  · exact answer_faults (execVtobytes_eq hinv v) (by simp [checksOf, firstFailing, hout])
  · exact answer_faults (execVtobytes_eq hinv v) (by simp [checksOf, firstFailing, hb.not_gt, hfull])
  · exact ⟨_, exec_vtobytes_of_le hinv v hb hbuf, succeeds_succeed _ rfl rfl rfl rfl rfl rfl rfl rfl rfl, rfl, rfl, rfl,
      fun j hj => ⟨_, VecSlot.byteAt?_serialise _ _ _ _ hj, fun k hk => VecSlot.getLsbD_byteAt _ _ k hk⟩,
      fun q hq => VecSlot.byteAt?_serialise_of_outside _ _ _ hq⟩

/-- Settles O49: after the append the field at the old size is inside the vector and holds the bits appended. -/
theorem appendThenReadBack : Obligations.AppendThenReadBack := by
  intro s v hinv hn hfits
  obtain ⟨_, _, hvcap, _⟩ := hinv.legal
  have happend := exec_vappend_of_le hinv v hn hfits
  obtain ⟨t, ht, htinv, harg, hvec⟩ : ∃ t, exec (.vappend v) s = .next t ∧ t.Inv ∧ t.arg = s.arg ∧
      t.vec.get v = (s.vec.get v).append (s.arg.get 0) (s.argNat 1) :=
    ⟨_, happend, inv_of_commandEffect hinv (exec_effect happend), rfl, vec_get_setVec _ _ _ _⟩
  have hoff : ((t.arg.set 0 (BitVec.ofNat 32 (s.vec.get v).size)).get 0).toNat = (s.vec.get v).size := by
    rw [Quad.get_set_self]
    exact toNat_resultOf (by omega)
  have hcount : ((t.arg.set 0 (BitVec.ofNat 32 (s.vec.get v).size)).get 1).toNat = s.argNat 1 := by
    rw [Quad.get_set_ne _ _ (by decide), harg]
    rfl
  have hinside : (s.vec.get v).size + s.argNat 1 ≤ (t.vec.get v).size := by
    rw [hvec]
    rfl
  refine ⟨t, _, ht, exec_vrdbits_of_le (s := { t with arg := t.arg.set 0 (BitVec.ofNat 32 (s.vec.get v).size) }) htinv v
    hoff hcount hn hinside, lastErr_statusOnSuccess _, ?_⟩
  have hfield := VecSlot.field_append (s.vec.get v) (s.arg.get 0) hn
  rwa [← hvec] at hfield

/-- Settles O51: XOR undoes itself; and a bit XOR itself is 0. -/
theorem xorTwiceRestores : Obligations.XorTwiceRestores := by
  intro s d c hinv hsize
  have hxor := exec_vxor_of_size hinv d c hsize
  obtain ⟨t, ht, htinv, hdst, hother⟩ : ∃ t, exec (.vxor d c) s = .next t ∧ t.Inv ∧
      t.vec.get d = (s.vec.get d).xor (s.vec.get c) ∧ ∀ k, k ≠ d → t.vec.get k = s.vec.get k :=
    ⟨_, hxor, inv_of_commandEffect hinv (exec_effect hxor), vec_get_setVec _ _ _ _, (onlyVec_setVec _ _ _ _).vec⟩
  have hsize' : (t.vec.get d).size = (t.vec.get c).size := by
    by_cases hdc : d = c
    · rw [hdc]
    · rw [hdst, hother c (Ne.symm hdc)]
      exact hsize
  refine ⟨t, _, ht, exec_vxor_of_size htinv d c hsize', fun hdc => Quad.ext_get fun k => ?_, ?_⟩
  · rw [State.succeed_vec, State.setVec_vec, Quad.get_set]
    split
    · next hk =>
      obtain ⟨_, hwf, _⟩ := hinv.vecOk d
      rw [hk, hdst, hother c (Ne.symm hdc), VecSlot.xor_xor hwf]
    · next hk => exact hother k hk
  · rintro rfl i hi
    rw [hdst, VecSlot.vbit_xor _ _ hi, bne_self_eq_false]

/-- Settles O52: the second flip writes back the bit that the first found. -/
theorem flipTwiceRestores : Obligations.FlipTwiceRestores := by
  refine ⟨fun s v hinv hi => ?_, fun s m hinv hx hy => ?_⟩
  · obtain ⟨_, hwf, _⟩ := hinv.vecOk v
    have ht := exec_vflip_of_lt hinv v hi
    have hu := exec_vflip_of_lt (inv_of_commandEffect hinv (exec_effect ht)) v (by simpa [VecSlot.flip] using hi)
    exact ⟨_, _, ht, hu, by simp [VecSlot.flip_flip hwf]⟩
  · obtain ⟨_, hwf, _⟩ := hinv.matOk m
    have ht := exec_mflip_of_lt hinv m hx hy
    have hu := exec_mflip_of_lt (inv_of_commandEffect hinv (exec_effect ht)) m (by simpa [MatSlot.flip] using hx)
      (by simpa [MatSlot.flip] using hy)
    exact ⟨_, _, ht, hu, by simp [MatSlot.flip_flip hwf (hinv.stride_eq m) hx]⟩

/-- Settles O28: no word stays listed, so every bit reads 0. -/
theorem vinitRule : Obligations.VinitRule := by
  intro s v hinv
  refine ⟨decode_slotA v rfl rfl rfl, fun hneg => ?_, fun hneg hbig => ?_, fun hsize => ?_⟩
  · exact answer_faults (execVinit_eq hinv v) (by simp [checksOf, firstFailing, -Nat.reducePow, hneg])
  · exact answer_faults (execVinit_eq hinv v) (by simp [checksOf, firstFailing, -Nat.reducePow, hneg.not_ge, hbig])
  · refine ⟨_, exec_vinit_of_le hinv v hsize, succeeds_setVec _ _ _ _, onlyVec_setVec _ _ _ _, ?_⟩
    rw [vec_get_setVec]
    exact ⟨rfl, fun i _ => VecSlot.vbit_zeros _ i⟩

/-- Settles O29: a size is a 32-bit number. -/
theorem vsizeRule : Obligations.VsizeRule := by
  intro s v hinv
  obtain ⟨_, _, hvcap, _⟩ := hinv.legal
  have hsize := hinv.vecSize_le v
  exact ⟨decode_slotA v rfl rfl rfl, _, _, execVsize_eq v, succeeds_answer _ _, sameStorage_succeed _ _,
    toNat_resultOf (by omega)⟩

/-- Settles O30: one check, then the bit. -/
theorem vgetRule : Obligations.VgetRule := by
  intro s v hinv
  refine ⟨decode_slotA v rfl rfl rfl, fun hout => ?_, fun hi => ?_⟩
  · exact answer_faults (execVget_eq hinv v) (by simp [checksOf, firstFailing, hout])
  · exact ⟨_, exec_vget_of_lt hinv v hi, sameStorage_succeed _ _, succeeds_answer _ _⟩

end Sys2Proof.Proofs
end

section
/-! PROOFS. The logical bits of a matrix under the matrix commands (41_matrix_commands.md R160 to R168), and what its
searches find (R169 to R171). -/

namespace Sys2Proof.Machine

/-! ### The bits of a matrix -/

theorem MatSlot.mbit_zeros (width height stride x y : Nat) :
    MatSlot.mbit { width := width, height := height, stride := stride, words := [] } x y = false := by
  simp [MatSlot.mbit, WordMem.bit]

/-- `mput` leaves the dimensions and every other logical bit (R163, R164). -/
theorem MatSlot.mput_changes_one_bit {d : MatSlot} (hs : d.stride = ceilDiv32 d.width) {x : Nat} (hx : x < d.width)
    (y : Nat) (b : Bool) : SameDims (d.mput x y b) d ∧ (d.mput x y b).mbit x y = b ∧
      ∀ x' < d.width, ∀ y' < d.height, ¬(x' = x ∧ y' = y) → (d.mput x y b).mbit x' y' = d.mbit x' y' := by
  refine ⟨⟨rfl, rfl, rfl⟩, ?_, fun x' hx' y' _ hne => ?_⟩
  · rw [MatSlot.mbit_mput hs b hx hx, if_pos ⟨rfl, rfl⟩]
  · rw [MatSlot.mbit_mput hs b hx hx', if_neg hne]

/-- R165 in logical bits. -/
theorem MatSlot.mbit_fill {d : MatSlot} (hs : d.stride = ceilDiv32 d.width) (left top w h : Nat) {x y : Nat}
    (hx : x < d.width) (hy : y < d.height) : (d.fill (inRegion left top w h)).mbit x y =
      if left ≤ x ∧ x < left + w ∧ top ≤ y ∧ y < top + h then true else d.mbit x y := by
  rw [MatSlot.fill, MatSlot.mbit_rewrite hs _ hx hy, inRegion]
  split
  · next hin => rw [decide_eq_true hin, Bool.true_or]
  · next hout => rw [decide_eq_false hout, Bool.false_or]

/-- R166 in logical bits. -/
theorem MatSlot.vbit_rowVector {d : MatSlot} (hs : d.stride = ceilDiv32 d.width) (y : Nat) {x : Nat}
    (hx : x < d.width) : (d.rowVector y).vbit x = d.mbit x y := by
  have hword : x / 32 < d.stride := hs ▸ lt_ceilDiv32 hx
  have hlive : 0 ≤ x / 32 ∧ x / 32 < 0 + d.stride := by omega
  simp only [VecSlot.vbit, MatSlot.rowVector, MatSlot.mbit, MatSlot.wordIndex, WordMem.bit]
  rw [WordMem.read_writeRun, if_pos hlive, Nat.sub_zero]

/-- A word is one of row `y0` exactly if its row is `y0` (20_memory.md R65). -/
theorem rowWord_in_row_iff {stride j : Nat} (y y0 : Nat) (hj : j < stride) :
    (y0 * stride ≤ y * stride + j ∧ y * stride + j < y0 * stride + stride) ↔ y = y0 := by
  have hrow : ∀ {a b : Nat}, a < b → a * stride + stride ≤ b * stride := fun {a b} hab => by
    rw [← Nat.succ_mul]
    exact Nat.mul_le_mul_right _ hab
  constructor
  · rintro ⟨hge, hlt⟩
    rcases Nat.lt_trichotomy y y0 with hy | hy | hy
    · have := hrow hy
      omega
    · exact hy
    · have := hrow hy
      omega
  · rintro rfl
    omega

/-- R167 in logical bits. -/
theorem MatSlot.mbit_setRow {d : MatSlot} (hs : d.stride = ceilDiv32 d.width) (y0 y : Nat) (v : VecSlot) {x : Nat}
    (hx : x < d.width) : (d.setRow y0 v).mbit x y = if y = y0 then v.vbit x else d.mbit x y := by
  have hword : x / 32 < d.stride := hs ▸ lt_ceilDiv32 hx
  simp only [MatSlot.mbit, MatSlot.setRow, MatSlot.wordIndex, VecSlot.vbit, WordMem.bit]
  rw [WordMem.read_writeRun]
  simp only [rowWord_in_row_iff y y0 hword]
  split
  · next hy => rw [hy, Nat.add_sub_cancel_left]
  · rfl

/-- R168 in logical bits. -/
theorem MatSlot.mbit_rotate {d : MatSlot} (hs : d.stride = ceilDiv32 d.width) {x y : Nat} (hx : x < d.width)
    (hy : y < d.height) : d.rotate.mbit x y = d.mbit (d.width - 1 - x) (d.height - 1 - y) :=
  MatSlot.mbit_rewrite hs _ hx hy

/-- Mirroring a coordinate twice gives it back. -/
theorem mirror_mirror {n i : Nat} (hi : i < n) : n - 1 - (n - 1 - i) = i := by omega

/-- Rotating twice moves every logical bit back (R168). -/
theorem MatSlot.rotate_rotate {p : Params} {d : MatSlot} (hok : d.Ok p) : d.rotate.rotate = d := by
  have ⟨hdims, _⟩ := hok
  refine MatSlot.ext_mbit ((hok.rewrite _).rewrite _) hok ⟨rfl, rfl, rfl⟩
    fun x (hx : x < d.width) y (hy : y < d.height) => ?_
  calc d.rotate.rotate.mbit x y
    _ = d.rotate.mbit (d.width - 1 - x) (d.height - 1 - y) :=
        MatSlot.mbit_rotate (d := d.rotate) hdims.stride_eq hx hy
    _ = d.mbit (d.width - 1 - (d.width - 1 - x)) (d.height - 1 - (d.height - 1 - y)) :=
        MatSlot.mbit_rotate hdims.stride_eq (by omega) (by omega)
    _ = d.mbit x y := by rw [mirror_mirror hx, mirror_mirror hy]

/-! ### Searches -/

/-- No logical bit of the matrix is set. -/
abbrev MatSlot.Clear (d : MatSlot) : Prop := ∀ x < d.width, ∀ y < d.height, d.mbit x y = false

theorem MatSlot.rowHasBit_eq_false {d : MatSlot} {y : Nat} :
    d.rowHasBit y = false ↔ ∀ x < d.width, d.mbit x y = false := by
  simp [MatSlot.rowHasBit]

theorem MatSlot.colHasBit_eq_false {d : MatSlot} {x : Nat} :
    d.colHasBit x = false ↔ ∀ y < d.height, d.mbit x y = false := by
  simp [MatSlot.colHasBit]

theorem MatSlot.topBit_of_clear {d : MatSlot} (h : d.Clear) : d.topBit = none := by
  rw [MatSlot.topBit, leastBelow_eq_none.2 fun y hy => MatSlot.rowHasBit_eq_false.2 fun x hx => h x hx y hy]
  rfl

theorem MatSlot.bottomBit_of_clear {d : MatSlot} (h : d.Clear) : d.bottomBit = none := by
  rw [MatSlot.bottomBit, greatestBelow_eq_none.2 fun y hy => MatSlot.rowHasBit_eq_false.2 fun x hx => h x hx y hy]
  rfl

/-- The set bit with no set bit above it, and none before it in its row, is what `MTOP` finds (R169). -/
theorem MatSlot.topBit_of_first {d : MatSlot} {x y : Nat} (hx : x < d.width) (hy : y < d.height)
    (hset : d.mbit x y = true) (habove : ∀ x' < d.width, ∀ y' < y, d.mbit x' y' = false)
    (hbefore : ∀ x' < x, d.mbit x' y = false) : d.topBit = some (x, y) := by
  have hrow : leastBelow d.rowHasBit d.height = some y :=
    leastBelow_eq_some.2 ⟨hy, MatSlot.rowHasBit_iff.2 ⟨x, hx, hset⟩,
      fun y' hy' => MatSlot.rowHasBit_eq_false.2 fun x' hx' => habove x' hx' y' hy'⟩
  have hcol : leastBelow (fun x => d.mbit x y) d.width = some x := leastBelow_eq_some.2 ⟨hx, hset, hbefore⟩
  rw [MatSlot.topBit, hrow, Option.bind_some, hcol, Option.map_some]

/-- The set bit with no set bit below it, and none after it in its row, is what `MBOT` finds (R170). -/
theorem MatSlot.bottomBit_of_last {d : MatSlot} {x y : Nat} (hx : x < d.width) (hy : y < d.height)
    (hset : d.mbit x y = true) (hbelow : ∀ x' < d.width, ∀ y' < d.height, y < y' → d.mbit x' y' = false)
    (hafter : ∀ x' < d.width, x < x' → d.mbit x' y = false) : d.bottomBit = some (x, y) := by
  have hrow : greatestBelow d.rowHasBit d.height = some y :=
    greatestBelow_eq_some.2 ⟨hy, MatSlot.rowHasBit_iff.2 ⟨x, hx, hset⟩,
      fun y' hlt hy' => MatSlot.rowHasBit_eq_false.2 fun x' hx' => hbelow x' hx' y' hy' hlt⟩
  have hcol : greatestBelow (fun x => d.mbit x y) d.width = some x :=
    greatestBelow_eq_some.2 ⟨hx, hset, fun x' hlt hx' => hafter x' hx' hlt⟩
  rw [MatSlot.bottomBit, hrow, Option.bind_some, hcol, Option.map_some]

/-- A matrix has no set bit, or it has a last one: in the greatest row with a set bit, the greatest column. -/
theorem MatSlot.clear_or_last (d : MatSlot) : d.Clear ∨ ∃ x < d.width, ∃ y < d.height, d.mbit x y = true ∧
    (∀ x' < d.width, ∀ y' < d.height, y < y' → d.mbit x' y' = false) ∧
    ∀ x' < d.width, x < x' → d.mbit x' y = false := by
  cases hrow : greatestBelow d.rowHasBit d.height with
  | none => exact .inl fun x hx y hy => MatSlot.rowHasBit_eq_false.1 (greatestBelow_eq_none.1 hrow y hy) x hx
  | some y =>
    obtain ⟨hy, hhas, hbelow⟩ := greatestBelow_eq_some.1 hrow
    obtain ⟨x0, hx0, hset0⟩ := MatSlot.rowHasBit_iff.1 hhas
    cases hcol : greatestBelow (fun x => d.mbit x y) d.width with
    | none => exact absurd hset0 (Bool.eq_false_iff.1 (greatestBelow_eq_none.1 hcol x0 hx0))
    | some x =>
      obtain ⟨hx, hset, hafter⟩ := greatestBelow_eq_some.1 hcol
      exact .inr ⟨x, hx, y, hy, hset,
        fun x' hx' y' hy' hlt => MatSlot.rowHasBit_eq_false.1 (hbelow y' hlt hy') x' hx',
        fun x' hx' hlt => hafter x' hlt hx'⟩

/-- What `MBOT` finds is what `MTOP` finds in the rotated matrix, mirrored (R168, R170). -/
theorem MatSlot.bottomBit_mirrors_topBit_rotate {d : MatSlot} (hs : d.stride = ceilDiv32 d.width) :
    (d.bottomBit = none ∧ d.rotate.topBit = none) ∨ ∃ x < d.width, ∃ y < d.height, d.bottomBit = some (x, y) ∧
      d.rotate.topBit = some (d.width - 1 - x, d.height - 1 - y) := by
  rcases d.clear_or_last with hclear | ⟨x, hx, y, hy, hset, hbelow, hafter⟩
  · have hrotated : d.rotate.Clear := fun x (hx : x < d.width) y (hy : y < d.height) => by
      rw [MatSlot.mbit_rotate hs hx hy]
      exact hclear _ (by omega) _ (by omega)
    exact .inl ⟨MatSlot.bottomBit_of_clear hclear, MatSlot.topBit_of_clear hrotated⟩
  · refine .inr ⟨x, hx, y, hy, MatSlot.bottomBit_of_last hx hy hset hbelow hafter, ?_⟩
    have hx' : d.width - 1 - x < d.width := by omega
    have hy' : d.height - 1 - y < d.height := by omega
    refine MatSlot.topBit_of_first hx' hy' ?_ (fun x' (hin : x' < d.width) y' habove => ?_) fun x' hbefore => ?_
    · rw [MatSlot.mbit_rotate hs hx' hy', mirror_mirror hx, mirror_mirror hy, hset]
    · rw [MatSlot.mbit_rotate hs hin (by omega)]
      exact hbelow _ (by omega) _ (by omega) (by omega)
    · rw [MatSlot.mbit_rotate hs (by omega) hy', mirror_mirror hy]
      exact hafter _ (by omega) (by omega)

theorem MatSlot.enclosingRect_of_clear {d : MatSlot} (h : d.Clear) : d.enclosingRect = noResults := by
  rw [MatSlot.enclosingRect, leastBelow_eq_none.2 fun x hx => MatSlot.colHasBit_eq_false.2 (h x hx)]

/-- A bound below all places where `p` holds, and itself such a place, is the least one. -/
theorem leastBelow_of_bound {p : Nat → Bool} {n i : Nat} (hi : i < n) (hp : p i = true)
    (hbound : ∀ j < n, p j = true → i ≤ j) : leastBelow p n = some i :=
  leastBelow_eq_some.2 ⟨hi, hp, fun j hj =>
    Bool.eq_false_iff.2 fun hpj => absurd (hbound j (by omega) hpj) (by omega)⟩

/-- A bound above all places where `p` holds, and itself such a place, is the greatest one. -/
theorem greatestBelow_of_bound {p : Nat → Bool} {n i : Nat} (hi : i < n) (hp : p i = true)
    (hbound : ∀ j < n, p j = true → j ≤ i) : greatestBelow p n = some i :=
  greatestBelow_eq_some.2 ⟨hi, hp, fun j hij hj =>
    Bool.eq_false_iff.2 fun hpj => absurd (hbound j hj hpj) (by omega)⟩

/-- The columns `l`, `r` and the rows `t`, `b` bound the set bits, and each of the four has one (R171). -/
structure MatSlot.Encloses (d : MatSlot) (l r t b : Nat) : Prop where
  bounds : ∀ x < d.width, ∀ y < d.height, d.mbit x y = true → l ≤ x ∧ x ≤ r ∧ t ≤ y ∧ y ≤ b
  left : l < d.width ∧ d.colHasBit l = true
  right : r < d.width ∧ d.colHasBit r = true
  top : t < d.height ∧ d.rowHasBit t = true
  bottom : b < d.height ∧ d.rowHasBit b = true

theorem MatSlot.enclosingRect_of_encloses {d : MatSlot} {l r t b : Nat} (h : d.Encloses l r t b) :
    d.enclosingRect = ⟨resultOf l, resultOf t, resultOf (r - l + 1), resultOf (b - t + 1)⟩ := by
  have hcol : ∀ x < d.width, d.colHasBit x = true → l ≤ x ∧ x ≤ r := fun x hx hhas => by
    obtain ⟨y, hy, hset⟩ := MatSlot.colHasBit_iff.1 hhas
    obtain ⟨hl, hr, _⟩ := h.bounds x hx y hy hset
    exact ⟨hl, hr⟩
  have hrow : ∀ y < d.height, d.rowHasBit y = true → t ≤ y ∧ y ≤ b := fun y hy hhas => by
    obtain ⟨x, hx, hset⟩ := MatSlot.rowHasBit_iff.1 hhas
    obtain ⟨_, _, ht, hb⟩ := h.bounds x hx y hy hset
    exact ⟨ht, hb⟩
  have hl : leastBelow d.colHasBit d.width = some l :=
    leastBelow_of_bound h.left.1 h.left.2 fun x hx hhas => (hcol x hx hhas).1
  have hr : greatestBelow d.colHasBit d.width = some r :=
    greatestBelow_of_bound h.right.1 h.right.2 fun x hx hhas => (hcol x hx hhas).2
  have ht : leastBelow d.rowHasBit d.height = some t :=
    leastBelow_of_bound h.top.1 h.top.2 fun y hy hhas => (hrow y hy hhas).1
  have hb : greatestBelow d.rowHasBit d.height = some b :=
    greatestBelow_of_bound h.bottom.1 h.bottom.2 fun y hy hhas => (hrow y hy hhas).2
  rw [MatSlot.enclosingRect, hl, hr, ht, hb]

end Sys2Proof.Machine
end

section
/-! PROOFS. The matrix commands in a well-formed state: the fault of each check that fails, and what they leave once their
checks have passed (41_matrix_commands.md R160 to R171; 60_exceptions.md R278). -/

namespace Sys2Proof.Machine

/-! ### Dimensions -/

theorem State.Inv.matDims_lt {s : State} (h : s.Inv) (m : Fin 4) :
    (s.mat.get m).width < 2 ^ 31 ∧ (s.mat.get m).height < 2 ^ 31 ∧ (s.mat.get m).stride < 2 ^ 31 := by
  have ⟨hdims, _⟩ := h.matOk m
  rcases hdims with ⟨hw, hh, hs⟩ | ⟨_, hw, _, hh, hs, _⟩ <;> omega

/-- A slot with a row is configured (10_state.md R37). -/
theorem State.Inv.configured_of_row {s : State} (h : s.Inv) {m : Fin 4} {y : Nat} (hy : y < (s.mat.get m).height) :
    (s.mat.get m).width ≠ 0 := by
  have ⟨hdims, _⟩ := h.matOk m
  rcases hdims with ⟨_, hh, _⟩ | ⟨hw, _⟩ <;> omega

/-! ### Storage after a command that writes a matrix -/

theorem succeeds_setMat (s : State) (m : Fin 4) (d : MatSlot) (r : Quad Word) :
    Succeeds s ((s.setMat m d).succeed r) r.q0 r.q1 r.q2 r.q3 :=
  succeeds_succeed r rfl rfl rfl rfl rfl rfl rfl rfl rfl

theorem mat_get_setMat (s : State) (m : Fin 4) (d : MatSlot) (r : Quad Word) :
    ((s.setMat m d).succeed r).mat.get m = d :=
  Quad.get_set_self _ _ _

/-! ### Checks that fail -/

theorem firstFailing_cons_of_false {check : Bool × Cause} (h : check.1 = false) (rest : List (Bool × Cause)) :
    firstFailing (check :: rest) = firstFailing rest := by
  obtain ⟨b, c⟩ := check
  obtain rfl : b = false := h
  rfl

theorem firstFailing_cons_of_true {check : Bool × Cause} (h : check.1 = true) (rest : List (Bool × Cause)) :
    firstFailing (check :: rest) = some check.2 := by
  obtain ⟨b, c⟩ := check
  obtain rfl : b = true := h
  rfl

/-- Where all checks raise one cause, it does not matter which one fails. -/
theorem firstFailing_of_common_cause {checks : List (Bool × Cause)} {c : Cause} (hcause : ∀ check ∈ checks, check.2 = c)
    (hfails : ∃ check ∈ checks, check.1 = true) : firstFailing checks = some c := by
  induction checks with
  | nil =>
    obtain ⟨_, hmem, _⟩ := hfails
    cases hmem
  | cons check rest ih =>
    cases hcheck : check.1 with
    | true => rw [firstFailing_cons_of_true hcheck, hcause check List.mem_cons_self]
    | false =>
      rw [firstFailing_cons_of_false hcheck]
      refine ih (fun check' hmem => hcause check' (List.mem_cons_of_mem _ hmem)) ?_
      obtain ⟨check', hmem, hcheck'⟩ := hfails
      rcases List.mem_cons.1 hmem with rfl | hmem
      · rw [hcheck] at hcheck'
        cases hcheck'
      · exact ⟨check', hmem, hcheck'⟩

section
variable {s done : State} {m : Fin 4} {rest : List (Bool × Cause)} {r : Result}

/-- The check *configured* passes. -/
theorem unconfigured_eq_false (h : (s.mat.get m).width ≠ 0) : (unconfigured (s.matAt m)).1 = false :=
  Bool.eq_false_iff.2 fun hb => (unconfigured_iff s m).1 hb h

/-- Every matrix command but `MINIT` and `MDIM` first checks that its slot is configured. -/
theorem unconfigured_faults (hr : r = .next (s.afterChecks (unconfigured (s.matAt m) :: rest) done))
    (h : (s.mat.get m).width = 0) : ∃ t, r = .next t ∧ Faults s t .invalidArgument :=
  answer_faults hr (firstFailing_cons_of_true ((unconfigured_iff s m).2 (not_not.2 h)) rest)

/-- The second check of a command on one bit (R162 to R164). -/
theorem outside_faults {x y : Nat}
    (hr : r = .next (s.afterChecks (unconfigured (s.matAt m) :: outside (s.matAt m) x y :: rest) done))
    (h : (s.mat.get m).width ≠ 0) (hout : (s.mat.get m).width ≤ x ∨ (s.mat.get m).height ≤ y) :
    ∃ t, r = .next t ∧ Faults s t .bounds := by
  refine answer_faults hr ?_
  rw [firstFailing_cons_of_false (unconfigured_eq_false h)]
  exact firstFailing_cons_of_true ((outside_iff s m x y).2 hout) rest

/-- The second check of a command on a row (R166, R167). -/
theorem rowOutside_faults {y : Nat}
    (hr : r = .next (s.afterChecks
      (unconfigured (s.matAt m) :: (decide (y ≥ (s.matAt m).height), .bounds) :: rest) done))
    (h : (s.mat.get m).width ≠ 0) (hout : (s.mat.get m).height ≤ y) : ∃ t, r = .next t ∧ Faults s t .bounds := by
  refine answer_faults hr ?_
  rw [firstFailing_cons_of_false (unconfigured_eq_false h)]
  exact firstFailing_cons_of_true (by simpa using hout) rest

/-- The third check of a command on a row (R166, R167). -/
theorem rowLength_faults (h : s.Inv) {y : Nat} {b : Bool} {c : Cause}
    (hr : r = .next (s.afterChecks
      (unconfigured (s.matAt m) :: (decide (y ≥ (s.matAt m).height), .bounds) :: (b, c) :: rest) done))
    (hy : y < (s.mat.get m).height) (hb : b = true) : ∃ t, r = .next t ∧ Faults s t c := by
  refine answer_faults hr ?_
  rw [firstFailing_cons_of_false (unconfigured_eq_false (h.configured_of_row hy)),
    firstFailing_cons_of_false (by simpa using hy)]
  exact firstFailing_cons_of_true hb rest

/-- Both checks of a command on one bit pass. -/
theorem firstFailing_of_inside {x y : Nat} (hx : x < (s.mat.get m).width) (hy : y < (s.mat.get m).height) :
    firstFailing [unconfigured (s.matAt m), outside (s.matAt m) x y] = none := by
  have hconfigured : (s.mat.get m).width ≠ 0 := by omega
  rw [firstFailing_cons_of_false (unconfigured_eq_false hconfigured)]
  exact firstFailing_cons_of_false (Bool.eq_false_iff.2 (mt (outside_iff s m x y).1 (by omega))) []

/-- The only check of a command on a whole matrix passes. -/
theorem firstFailing_of_configured (h : (s.mat.get m).width ≠ 0) : firstFailing [unconfigured (s.matAt m)] = none :=
  firstFailing_cons_of_false (unconfigured_eq_false h) []

end

/-! ### Answers of the searches -/

section
variable {s : State} {r : Result}

/-- A search of a matrix without a set bit answers zeros (R169 to R171). -/
theorem zeros_answer {results : Quad Word} (hr : r = .next (s.succeed results)) (hzero : results = noResults) :
    ∃ t, r = .next t ∧ Succeeds s t 0#32 0#32 0#32 0#32 ∧ SameStorage s t := by
  subst hzero
  exact ⟨_, hr, succeeds_answer _ _, sameStorage_succeed _ _⟩

/-- A search that finds a bit answers its coordinates (R169, R170). -/
theorem found_answer {found : Option (Nat × Nat)} {x y : Nat} (hr : r = .next (s.succeed (foundResults found)))
    (hfound : found = some (x, y)) (hx : x < 2 ^ 32) (hy : y < 2 ^ 32) : ∃ (t : State) (rx ry : Word), r = .next t ∧
      Succeeds s t 1#32 rx ry 0#32 ∧ SameStorage s t ∧ rx.toNat = x ∧ ry.toNat = y := by
  subst hfound
  exact ⟨_, _, _, hr, succeeds_answer _ _, sameStorage_succeed _ _, toNat_resultOf hx, toNat_resultOf hy⟩

theorem toNat_foundResults_x {x : Nat} (y : Nat) (hx : x < 2 ^ 32) :
    ((foundResults (some (x, y))).get 1).toNat = x :=
  toNat_resultOf hx

theorem toNat_foundResults_y (x : Nat) {y : Nat} (hy : y < 2 ^ 32) :
    ((foundResults (some (x, y))).get 2).toNat = y :=
  toNat_resultOf hy

end

/-! ### Checks that pass -/

section
variable {s : State} (h : s.Inv) (m v : Fin 4)
include h

omit h in
theorem exec_minit_of_le (hw : 1 ≤ s.argNat 0) (hh : 1 ≤ s.argNat 1) (hw' : s.argNat 0 < 2 ^ 31)
    (hh' : s.argNat 1 < 2 ^ 31) (hcap : (s.argNat 0 + 31) / 32 * s.argNat 1 ≤ s.params.mcapWords) :
    exec (.minit m) s = .next ((s.setMat m
      { width := s.argNat 0, height := s.argNat 1, stride := ceilDiv32 (s.argNat 0), words := [] }).succeed
        (results3 (s.arg.get 0) (s.arg.get 1) (resultOf (ceilDiv32 (s.argNat 0))))) := by
  have hw0 : s.argNat 0 ≠ 0 := by omega
  have hh0 : s.argNat 1 ≠ 0 := by omega
  rw [← resultOf_argNat s 0, ← resultOf_argNat s 1]
  exact answer_passes (execMinit_eq m)
    (firstFailing_eq_none (by simp [checksOf, -Nat.reducePow, hw0, hh0, hw', hh', hcap]))

theorem exec_mget_of_lt (hx : s.argNat 0 < (s.mat.get m).width) (hy : s.argNat 1 < (s.mat.get m).height) :
    exec (.mget m) s = .next (s.succeed
      (result0 (if (s.mat.get m).mbit (s.argNat 0) (s.argNat 1) then 1#32 else 0#32))) := by
  rw [← resultOfBit_eq]
  exact answer_passes (execMget_eq h m) (firstFailing_of_inside hx hy)

theorem exec_mset_of_lt (hx : s.argNat 0 < (s.mat.get m).width) (hy : s.argNat 1 < (s.mat.get m).height) :
    exec (.mset m) s =
      .next ((s.setMat m ((s.mat.get m).mput (s.argNat 0) (s.argNat 1) true)).succeed noResults) :=
  answer_passes (execMset_eq h m) (firstFailing_of_inside hx hy)

theorem exec_mfill_of_le (hw : 1 ≤ s.argNat 2) (hh : 1 ≤ s.argNat 3)
    (hright : s.argNat 0 + s.argNat 2 ≤ (s.mat.get m).width)
    (hbottom : s.argNat 1 + s.argNat 3 ≤ (s.mat.get m).height) : exec (.mfill m) s =
    .next ((s.setMat m ((s.mat.get m).fill (inRegion (s.argNat 0) (s.argNat 1) (s.argNat 2) (s.argNat 3)))).succeed
      noResults) := by
  obtain ⟨hwidth, hheight, _⟩ := h.matDims_lt m
  have hconfigured : (s.mat.get m).width ≠ 0 := by omega
  have hw0 : s.argNat 2 ≠ 0 := by omega
  have hh0 : s.argNat 3 ≠ 0 := by omega
  have hw' : s.argNat 2 < 2 ^ 31 := by omega
  have hh' : s.argNat 3 < 2 ^ 31 := by omega
  exact answer_passes (execMfill_eq h m) (firstFailing_eq_none
    (by simp [checksOf, unconfigured, -Nat.reducePow, hconfigured, hw0, hh0, hw', hh', hright, hbottom]))

theorem exec_mgetrow_of_lt (hy : s.argNat 0 < (s.mat.get m).height) (hcap : (s.mat.get m).width ≤ s.params.vcapBits) :
    exec (.mgetrow m v) s = .next ((s.setVec v ((s.mat.get m).rowVector (s.argNat 0))).succeed
      (result0 (resultOf (s.mat.get m).width))) :=
  answer_passes (execMgetrow_eq h m v) (firstFailing_eq_none
    (by simp [checksOf, unconfigured, h.configured_of_row hy, hy, hcap]))

theorem exec_msetrow_of_lt {y : Nat} (harg : s.argNat 0 = y) (hy : y < (s.mat.get m).height)
    (hsize : (s.vec.get v).size = (s.mat.get m).width) :
    exec (.msetrow m v) s = .next ((s.setMat m ((s.mat.get m).setRow y (s.vec.get v))).succeed noResults) := by
  subst harg
  exact answer_passes (execMsetrow_eq h m v) (firstFailing_eq_none
    (by simp [checksOf, unconfigured, h.configured_of_row hy, hy, hsize]))

variable (hconfigured : (s.mat.get m).width ≠ 0)
include hconfigured

theorem exec_mrot180_of_configured :
    exec (.mrot180 m) s = .next ((s.setMat m (s.mat.get m).rotate).succeed noResults) :=
  answer_passes (execMrot180_eq h m) (firstFailing_of_configured hconfigured)

theorem exec_mtop_of_configured : exec (.mtop m) s = .next (s.succeed (foundResults (s.mat.get m).topBit)) :=
  answer_passes (execMtop_eq h m) (firstFailing_of_configured hconfigured)

theorem exec_mbot_of_configured : exec (.mbot m) s = .next (s.succeed (foundResults (s.mat.get m).bottomBit)) :=
  answer_passes (execMbot_eq h m) (firstFailing_of_configured hconfigured)

theorem exec_mrect_of_configured : exec (.mrect m) s = .next (s.succeed (s.mat.get m).enclosingRect) :=
  answer_passes (execMrect_eq h m) (firstFailing_of_configured hconfigured)

end

end Sys2Proof.Machine
end

section
/-! PROOFS. The obligations about the matrix commands. -/

open Sys2Proof Sys2Proof.Machine

namespace Sys2Proof.Proofs

/-- Settles O40: `mput` of a 1 changes one logical bit. -/
theorem msetRule : Obligations.MsetRule := by
  intro s m hinv
  refine ⟨decode_slotA m rfl rfl rfl, unconfigured_faults (execMset_eq hinv m), outside_faults (execMset_eq hinv m),
    fun hx hy => ⟨_, exec_mset_of_lt hinv m hx hy, succeeds_setMat _ _ _ _, onlyMat_setMat _ _ _ _, ?_⟩⟩
  rw [mat_get_setMat]
  exact MatSlot.mput_changes_one_bit (hinv.stride_eq m) hx _ _

/-- Settles O41: `mput` of the inverse changes one logical bit. -/
theorem mflipRule : Obligations.MflipRule := by
  intro s m hinv
  refine ⟨decode_slotA m rfl rfl rfl, unconfigured_faults (execMflip_eq hinv m), outside_faults (execMflip_eq hinv m),
    fun hx hy => ⟨_, exec_mflip_of_lt hinv m hx hy, succeeds_setMat _ _ _ _, onlyMat_setMat _ _ _ _, ?_⟩⟩
  rw [mat_get_setMat, MatSlot.flip]
  exact MatSlot.mput_changes_one_bit (hinv.stride_eq m) hx _ _

/-- Settles O42: all three checks raise one cause, so their order is not observable. -/
theorem mfillRule : Obligations.MfillRule := by
  intro s m hinv
  refine ⟨decode_slotA m rfl rfl rfl, fun hbad => ?_, fun hw hh hright hbottom => ?_⟩
  · refine answer_faults (execMfill_eq hinv m)
      (firstFailing_of_common_cause (by simp [checksOf, unconfigured]) ?_)
    simpa [checksOf, unconfigured, or_assoc, -Nat.reducePow] using hbad
  · refine ⟨_, exec_mfill_of_le hinv m hw hh hright hbottom, succeeds_setMat _ _ _ _, onlyMat_setMat _ _ _ _, ?_⟩
    rw [mat_get_setMat]
    exact ⟨⟨rfl, rfl, rfl⟩, fun x hx y hy => MatSlot.mbit_fill (hinv.stride_eq m) _ _ _ _ hx hy⟩

/-- Settles O43: copying the words of a row copies its logical bits. -/
theorem mgetrowRule : Obligations.MgetrowRule := by
  intro s m v hinv
  refine ⟨decode_slotAB m v rfl rfl rfl, unconfigured_faults (execMgetrow_eq hinv m v),
    rowOutside_faults (execMgetrow_eq hinv m v), fun hy hcap => ?_, fun hy hcap => ?_⟩
  · exact rowLength_faults hinv (execMgetrow_eq hinv m v) hy (by simpa using hcap)
  · obtain ⟨hwidth, _⟩ := hinv.matDims_lt m
    refine ⟨_, _, exec_mgetrow_of_lt hinv m v hy hcap, succeeds_setVec _ _ _ _, onlyVec_setVec _ _ _ _,
      toNat_resultOf (by omega), ?_⟩
    rw [vec_get_setVec]
    exact ⟨rfl, fun x hx => MatSlot.vbit_rowVector (hinv.stride_eq m) _ hx⟩

/-- Settles O44: the words of row `y` are no words of another row. -/
theorem msetrowRule : Obligations.MsetrowRule := by
  intro s m v hinv
  refine ⟨decode_slotAB m v rfl rfl rfl, unconfigured_faults (execMsetrow_eq hinv m v),
    rowOutside_faults (execMsetrow_eq hinv m v), fun hy hsize => ?_, fun hy hsize => ?_⟩
  · exact rowLength_faults hinv (execMsetrow_eq hinv m v) hy (by simpa using hsize)
  · refine ⟨_, exec_msetrow_of_lt hinv m v rfl hy hsize, succeeds_setMat _ _ _ _, onlyMat_setMat _ _ _ _, ?_⟩
    rw [mat_get_setMat]
    exact ⟨⟨rfl, rfl, rfl⟩, fun x hx y _ => MatSlot.mbit_setRow (hinv.stride_eq m) _ y _ hx⟩

/-- Settles O45: the matrix is written anew from its mirrored logical bits. -/
theorem mrot180Rule : Obligations.Mrot180Rule := by
  intro s m hinv
  refine ⟨decode_slotA m rfl rfl rfl, unconfigured_faults (execMrot180_eq hinv m), fun hconfigured =>
    ⟨_, exec_mrot180_of_configured hinv m hconfigured, succeeds_setMat _ _ _ _, onlyMat_setMat _ _ _ _, ?_⟩⟩
  rw [mat_get_setMat]
  exact ⟨⟨rfl, rfl, rfl⟩, fun x hx y hy => MatSlot.mbit_rotate (hinv.stride_eq m) hx hy⟩

/-- Settles O46: the search takes the rows from the top and the bits of a row from the left. -/
theorem mtopRule : Obligations.MtopRule := by
  intro s m hinv
  refine ⟨decode_slotA m rfl rfl rfl, unconfigured_faults (execMtop_eq hinv m), fun hconfigured hclear => ?_,
    fun x hx y hy hset habove hbefore => ?_⟩
  · refine zeros_answer (exec_mtop_of_configured hinv m hconfigured) ?_
    rw [MatSlot.topBit_of_clear hclear, foundResults]
  · obtain ⟨hwidth, hheight, _⟩ := hinv.matDims_lt m
    exact found_answer (exec_mtop_of_configured hinv m (hinv.configured_of_row hy))
      (MatSlot.topBit_of_first hx hy hset habove hbefore) (by omega) (by omega)

/-- Settles O47: the search takes the rows from the bottom and the bits of a row from the right. -/
theorem mbotRule : Obligations.MbotRule := by
  intro s m hinv
  refine ⟨decode_slotA m rfl rfl rfl, unconfigured_faults (execMbot_eq hinv m), fun hconfigured hclear => ?_,
    fun x hx y hy hset hbelow hafter => ?_⟩
  · refine zeros_answer (exec_mbot_of_configured hinv m hconfigured) ?_
    rw [MatSlot.bottomBit_of_clear hclear, foundResults]
  · obtain ⟨hwidth, hheight, _⟩ := hinv.matDims_lt m
    exact found_answer (exec_mbot_of_configured hinv m (hinv.configured_of_row hy))
      (MatSlot.bottomBit_of_last hx hy hset hbelow hafter) (by omega) (by omega)

/-- Settles O48: bounds that are attained are the least and greatest columns and rows. -/
theorem mrectRule : Obligations.MrectRule := by
  intro s m hinv
  refine ⟨decode_slotA m rfl rfl rfl, unconfigured_faults (execMrect_eq hinv m), fun hconfigured hclear => ?_, ?_⟩
  · exact zeros_answer (exec_mrect_of_configured hinv m hconfigured) (MatSlot.enclosingRect_of_clear hclear)
  · rintro l r t b hbounds ⟨yl, hyl, hl, hsetl⟩ ⟨yr, hyr, hr, hsetr⟩ ⟨xt, hxt, ht, hsett⟩ ⟨xb, hxb, hb, hsetb⟩
    have hencloses : (s.mat.get m).Encloses l r t b :=
      { bounds := hbounds
        left := ⟨hl, MatSlot.colHasBit_iff.2 ⟨yl, hyl, hsetl⟩⟩
        right := ⟨hr, MatSlot.colHasBit_iff.2 ⟨yr, hyr, hsetr⟩⟩
        top := ⟨ht, MatSlot.rowHasBit_iff.2 ⟨xt, hxt, hsett⟩⟩
        bottom := ⟨hb, MatSlot.rowHasBit_iff.2 ⟨xb, hxb, hsetb⟩⟩ }
    have hexec := exec_mrect_of_configured hinv m (hinv.configured_of_row ht)
    rw [MatSlot.enclosingRect_of_encloses hencloses] at hexec
    obtain ⟨hwidth, hheight, _⟩ := hinv.matDims_lt m
    exact ⟨_, _, _, _, _, hexec, succeeds_answer _ _, sameStorage_succeed _ _, toNat_resultOf (by omega),
      toNat_resultOf (by omega), toNat_resultOf (by omega), toNat_resultOf (by omega)⟩

/-- Settles O50: the second rotation moves every logical bit back, and no other bit is held. -/
theorem rotateTwiceRestores : Obligations.RotateTwiceRestores := by
  intro s m hinv hconfigured
  have ht := exec_mrot180_of_configured hinv m hconfigured
  have hu := exec_mrot180_of_configured (inv_of_commandEffect hinv (exec_effect ht)) m
    (by rw [mat_get_setMat]; exact hconfigured)
  exact ⟨_, _, ht, hu, by simp [MatSlot.rotate_rotate (hinv.matOk m)]⟩

/-- Settles O53: the last set bit is the first one of the rotated matrix, mirrored. -/
theorem bottomIsTopOfRotation : Obligations.BottomIsTopOfRotation := by
  intro s m hinv hconfigured
  have hb := exec_mbot_of_configured hinv m hconfigured
  have ht := exec_mrot180_of_configured hinv m hconfigured
  have hu := exec_mtop_of_configured (inv_of_commandEffect hinv (exec_effect ht)) m
    (by rw [mat_get_setMat]; exact hconfigured)
  rw [mat_get_setMat] at hu
  refine ⟨_, _, _, hb, ht, hu, ?_⟩
  rw [State.succeed_res, State.succeed_res]
  rcases MatSlot.bottomBit_mirrors_topBit_rotate (hinv.stride_eq m) with ⟨hbot, htop⟩ | ⟨x, hx, y, hy, hbot, htop⟩
  · rw [hbot, htop]
    exact ⟨rfl, fun hfound => absurd hfound (by decide)⟩
  · obtain ⟨hwidth, hheight, _⟩ := hinv.matDims_lt m
    rw [hbot, htop]
    refine ⟨rfl, fun _ => ⟨?_, ?_⟩⟩
    · rw [toNat_foundResults_x _ (by omega), toNat_foundResults_x _ (by omega), mirror_mirror hx]
    · rw [toNat_foundResults_y _ (by omega), toNat_foundResults_y _ (by omega), mirror_mirror hy]

/-- Settles O55: `MGETROW` leaves every matrix, so `MSETROW` finds the size it asks for and the rows as they were. -/
theorem rowCopyArrives : Obligations.RowCopyArrives := by
  intro s m n v y hinv hrow hy hwidth hcap
  have hget := exec_mgetrow_of_lt hinv m v hrow hcap
  obtain ⟨t, ht, htinv, hmat, hvec⟩ : ∃ t, exec (.mgetrow m v) s = .next t ∧ t.Inv ∧ t.mat = s.mat ∧
      t.vec.get v = (s.mat.get m).rowVector (s.argNat 0) :=
    ⟨_, hget, inv_of_commandEffect hinv (exec_effect hget), rfl, vec_get_setVec _ _ _ _⟩
  obtain ⟨_, hheight, _⟩ := hinv.matDims_lt n
  have harg : ((t.arg.set 0 (BitVec.ofNat 32 y)).get 0).toNat = y := by
    rw [Quad.get_set_self]
    exact toNat_resultOf (by omega)
  have hsize : (t.vec.get v).size = (t.mat.get n).width := by
    rw [hvec, hmat, hwidth]
    rfl
  have hu := exec_msetrow_of_lt (s := { t with arg := t.arg.set 0 (BitVec.ofNat 32 y) }) htinv n v harg
    (hmat ▸ hy) hsize
  refine ⟨t, _, ht, hu, lastErr_statusOnSuccess _, fun x hx y' _ => ?_⟩
  rw [mat_get_setMat, hmat, hvec, MatSlot.mbit_setRow (hinv.stride_eq n) y y' _ hx,
    MatSlot.vbit_rowVector (hinv.stride_eq m) _ (hwidth ▸ hx)]

/-- Settles O37: no word stays listed, so every bit reads 0. -/
theorem minitRule : Obligations.MinitRule := by
  intro s m _
  refine ⟨decode_slotA m rfl rfl rfl, fun hbad => ?_, fun hw hh hw' hh' hfull => ?_, fun hw hh hw' hh' hcap => ?_⟩
  · refine answer_faults (execMinit_eq m) (firstFailing_cons_of_true ?_ _)
    simpa [or_assoc, -Nat.reducePow] using hbad
  · refine answer_faults (execMinit_eq m) ((firstFailing_cons_of_false ?_ _).trans (firstFailing_cons_of_true ?_ _))
    · simp only [Bool.or_eq_false_iff, beq_eq_false_iff_ne, decide_eq_false_iff_not]
      omega
    · simpa using hfull
  · have hstride : ceilDiv32 (s.argNat 0) < 2 ^ 32 := by
      rw [ceilDiv32_eq]
      omega
    refine ⟨_, _, exec_minit_of_le m hw hh hw' hh' hcap, succeeds_setMat _ _ _ _, onlyMat_setMat _ _ _ _,
      toNat_resultOf hstride, ?_⟩
    rw [mat_get_setMat]
    exact ⟨rfl, rfl, rfl, fun x _ y _ => MatSlot.mbit_zeros _ _ _ x y⟩

/-- Settles O38: dimensions are 32-bit numbers. -/
theorem mdimRule : Obligations.MdimRule := by
  intro s m hinv
  obtain ⟨hwidth, hheight, hstride⟩ := hinv.matDims_lt m
  exact ⟨decode_slotA m rfl rfl rfl, _, _, _, _, execMdim_eq m, succeeds_answer _ _, sameStorage_succeed _ _,
    toNat_resultOf (by omega), toNat_resultOf (by omega), toNat_resultOf (by omega)⟩

/-- Settles O39: two checks, then the bit. -/
theorem mgetRule : Obligations.MgetRule := by
  intro s m hinv
  exact ⟨decode_slotA m rfl rfl rfl, unconfigured_faults (execMget_eq hinv m), outside_faults (execMget_eq hinv m),
    fun hx hy => ⟨_, exec_mget_of_lt hinv m hx hy, sameStorage_succeed _ _, succeeds_answer _ _⟩⟩

end Sys2Proof.Proofs
end

section
/-! PROOFS. What `ERRCLR`, `SRESET` and `BRD` leave (42_control_commands.md R201 to R203). -/

namespace Sys2Proof.Machine

theorem sameStorage_clearFaultRecord_succeed (s : State) (r : Quad Word) :
    SameStorage s (s.clearFaultRecord.succeed r) :=
  ⟨rfl, rfl, rfl, rfl⟩

/-- `CMD` is not among the pieces of state that `AtReset` speaks of. -/
theorem AtReset.withCmd {t : State} (h : AtReset t) (cw : Word) : AtReset { t with cmd := cw } :=
  { h with }

/-- `SRESET` keeps `CMD`, the parameters, the reset line and what belongs to the host (R202). -/
theorem exec_sreset_atReset (s : State) : ∃ t, exec .sreset s = .next t ∧ AtReset t ∧ t.cmd = s.cmd ∧
    t.params = s.params ∧ t.inReset = s.inReset ∧ t.events = s.events ∧ t.reads = s.reads :=
  ⟨_, execSreset_eq, (atReset_toReset s s.inReset).withCmd s.cmd, rfl, rfl, rfl, rfl, rfl⟩

theorem State.afterBrd_of_unwritten {s : State} (h : ByteMem.byteAt? s.bb (s.argNat 0) = none) : s.afterBrd =
    { s.succeed (result0 ((Config.freeByte s.freeCount).setWidth 32)) with freeCount := s.freeCount + 1 } := by
  simp [State.afterBrd, h]

theorem succeeds_withFreeCount {s t : State} {r0 r1 r2 r3 : Word} (h : Succeeds s t r0 r1 r2 r3) (n : Nat) :
    Succeeds s { t with freeCount := n } r0 r1 r2 r3 :=
  { h with }

/-- `BRD` returns a byte, the one written if there is one, and changes no object and no byte (R203). -/
theorem State.afterBrd_reads (s : State) : ∃ b : Byte, Succeeds s s.afterBrd (b.setWidth 32) 0#32 0#32 0#32 ∧
    s.afterBrd.vec = s.vec ∧ s.afterBrd.mat = s.mat ∧ s.afterBrd.bb = s.bb ∧
    ∀ b', ByteMem.byteAt? s.bb (s.argNat 0) = some b' → b = b' := by
  cases h : ByteMem.byteAt? s.bb (s.argNat 0) with
  | some b =>
    rw [State.afterBrd_of_written h]
    exact ⟨b, succeeds_answer _ _, rfl, rfl, rfl, fun _ hb => Option.some.inj hb⟩
  | none =>
    rw [State.afterBrd_of_unwritten h]
    exact ⟨Config.freeByte s.freeCount, succeeds_withFreeCount (succeeds_answer _ _) _, rfl, rfl, rfl, nofun⟩

end Sys2Proof.Machine
end

section
/-! PROOFS. The obligations about the control commands. -/

open Sys2Proof Sys2Proof.Machine

namespace Sys2Proof.Proofs

/-- Settles O24: `NOP` answers four zeros. -/
theorem nopRule : Obligations.NopRule := by
  intro s
  exact ⟨decode_encode (i := .nop) trivial, _, execNop_eq, succeeds_answer _ _, sameStorage_succeed _ _⟩

/-- Settles O25: the invariant gives that the reserved bits of `STATUS` are 0, so `STATUS` reads 0. -/
theorem errclrRule : Obligations.ErrclrRule := by
  intro s hinv
  obtain ⟨hstatus, herrCmd, herrArg⟩ := recordCleared_errclr hinv.recordOk noResults
  exact ⟨decode_encode (i := .errclr) trivial, _, execErrclr_eq, hstatus, herrCmd, herrArg, rfl, rfl, rfl, rfl, rfl, rfl,
    rfl, sameStorage_clearFaultRecord_succeed _ _⟩

/-- Settles O26: the write of the word runs `SRESET` with the word in `CMD`, which it keeps. -/
theorem sresetRule : Obligations.SresetRule := by
  have hdecode : decode 0x00000002#32 = .ok .sreset := decode_encode (i := .sreset) trivial
  refine ⟨hdecode, exec_sreset_atReset, fun s => ?_⟩
  rw [runCommandWord_ok hdecode]
  exact exec_sreset_atReset { s with cmd := 0x00000002#32 }

/-- Settles O27: one check, then a written byte or a free value. -/
theorem brdRule : Obligations.BrdRule := by
  intro s
  refine ⟨decode_encode (i := .brd) trivial, fun hout => ?_, fun hk => ?_⟩
  · exact answer_faults execBrd_eq (by simp [checksOf, firstFailing, hout])
  · obtain ⟨b, hreads⟩ := s.afterBrd_reads
    exact ⟨_, b, answer_passes execBrd_eq (firstFailing_eq_none (by simp [checksOf, hk])), hreads⟩

end Sys2Proof.Proofs
end

section
/-! PROOFS. The fault of every command is that of its first failing check (60_exceptions.md R270 to R278). -/

namespace Sys2Proof.Machine

theorem State.lastErr_afterBrd (s : State) : lastErr s.afterBrd.status = 0#4 := by
  obtain ⟨_, hsucceeds, _⟩ := s.afterBrd_reads
  exact hsucceeds.lastErr

/-- Every command is its checks in the order of R278, and then a state with `LASTERR` 0: the one its rule gives. -/
theorem exec_afterChecks {i : Instr} {s : State} (hi : i.WellFormed) (h : s.Inv) :
    ∃ done : State, exec i s = .next (s.afterChecks (checksOf i s) done) ∧ lastErr done.status = 0#4 := by
  cases i with
  | nop => exact ⟨_, execNop_eq, lastErr_statusOnSuccess _⟩
  | errclr => exact ⟨_, execErrclr_eq, lastErr_statusOnSuccess _⟩
  | sreset => exact ⟨_, execSreset_eq, rfl⟩
  | brd => exact ⟨_, execBrd_eq, s.lastErr_afterBrd⟩
  | vinit a => exact ⟨_, execVinit_eq h ⟨a, hi⟩, lastErr_statusOnSuccess _⟩
  | vsize a => exact ⟨_, execVsize_eq ⟨a, hi⟩, lastErr_statusOnSuccess _⟩
  | vget a => exact ⟨_, execVget_eq h ⟨a, hi⟩, lastErr_statusOnSuccess _⟩
  | vset a => exact ⟨_, execVset_eq h ⟨a, hi⟩, lastErr_statusOnSuccess _⟩
  | vflip a => exact ⟨_, execVflip_eq h ⟨a, hi⟩, lastErr_statusOnSuccess _⟩
  | vappend a => exact ⟨_, execVappend_eq h ⟨a, hi⟩, lastErr_statusOnSuccess _⟩
  | vrdbits a => exact ⟨_, execVrdbits_eq h ⟨a, hi⟩, lastErr_statusOnSuccess _⟩
  | vxor a b => exact ⟨_, execVxor_eq h ⟨a, hi.1⟩ ⟨b, hi.2⟩, lastErr_statusOnSuccess _⟩
  | vtobytes a => exact ⟨_, execVtobytes_eq h ⟨a, hi⟩, lastErr_statusOnSuccess _⟩
  | minit a => exact ⟨_, execMinit_eq ⟨a, hi⟩, lastErr_statusOnSuccess _⟩
  | mdim a => exact ⟨_, execMdim_eq ⟨a, hi⟩, lastErr_statusOnSuccess _⟩
  | mget a => exact ⟨_, execMget_eq h ⟨a, hi⟩, lastErr_statusOnSuccess _⟩
  | mset a => exact ⟨_, execMset_eq h ⟨a, hi⟩, lastErr_statusOnSuccess _⟩
  | mflip a => exact ⟨_, execMflip_eq h ⟨a, hi⟩, lastErr_statusOnSuccess _⟩
  | mfill a => exact ⟨_, execMfill_eq h ⟨a, hi⟩, lastErr_statusOnSuccess _⟩
  | mgetrow a b => exact ⟨_, execMgetrow_eq h ⟨a, hi.1⟩ ⟨b, hi.2⟩, lastErr_statusOnSuccess _⟩
  | msetrow a b => exact ⟨_, execMsetrow_eq h ⟨a, hi.1⟩ ⟨b, hi.2⟩, lastErr_statusOnSuccess _⟩
  | mrot180 a => exact ⟨_, execMrot180_eq h ⟨a, hi⟩, lastErr_statusOnSuccess _⟩
  | mtop a => exact ⟨_, execMtop_eq h ⟨a, hi⟩, lastErr_statusOnSuccess _⟩
  | mbot a => exact ⟨_, execMbot_eq h ⟨a, hi⟩, lastErr_statusOnSuccess _⟩
  | mrect a => exact ⟨_, execMrect_eq h ⟨a, hi⟩, lastErr_statusOnSuccess _⟩

/-- The checks of a command, made: the fault record of the first that fails, or `LASTERR` 0. -/
theorem State.afterChecks_faults_or_succeeds (s : State) (checks : List (Bool × Cause)) {done : State}
    (hdone : lastErr done.status = 0#4) :
    (∀ c, firstFailing checks = some c → Faults s (s.afterChecks checks done) c) ∧
      (firstFailing checks = none → lastErr (s.afterChecks checks done).status = 0#4) := by
  refine ⟨fun c hfirst => ?_, fun hnone => ?_⟩
  · rw [State.afterChecks_of_some hfirst]
    exact faults_takeFault s c
  · rw [State.afterChecks_of_none hnone]
    exact hdone

end Sys2Proof.Machine
end

section
/-! PROOFS. The obligation about the faults. -/

open Sys2Proof Sys2Proof.Machine

namespace Sys2Proof.Proofs

/-- Settles O18: a command is its list of checks and then a success, and the first failing check decides. -/
theorem faultIsFirstFailingCheck : Obligations.FaultIsFirstFailingCheck := by
  intro i s hi hinv
  obtain ⟨done, hexec, hdone⟩ := exec_afterChecks hi hinv
  exact ⟨_, hexec, s.afterChecks_faults_or_succeeds (checksOf i s) hdone⟩

end Sys2Proof.Proofs
end
